-- ==== Sys2Proof/Word.lean ====
section
/-! DEFINITION. The widths of Meduza3/imp CORE (R8, R9, R70 of 00_scope.md and 30_encoding.md) as bit-vector types. -/

namespace Sys2Proof

/-- A 64-bit data word, read as the signed two's-complement integer `int64` of R8: a memory cell, the accumulator,
an operand, an input value, an output value. Its signed value is `BitVec.toInt`. -/
abbrev Word := BitVec 64

/-- The 65-bit signed program counter (R21; `PC_W` of R9). -/
abbrev Pc := BitVec 65

/-- The 72-bit instruction word (R70; `INSN_W` of R9). -/
abbrev InsnWord := BitVec 72

/-- The 8-bit opcode field (R70; `OPC_W` of R9). -/
abbrev OpcodeField := BitVec 8

end Sys2Proof
end

