-- ==== Sys2Proof/Machine/Alu.lean ====
section
/-! DEFINITION. The arithmetic unit (R99, R100, R105 of 40_sequencer.md; R140 of 43_arithmetic.md): add, subtract, arithmetic
halving, and nothing else. -/

namespace Sys2Proof.Machine

/-- `wrap64(a + b)`: the low 64 bits of the exact sum, no fault, no flag (R99; `OVERFLOW_MODE = wrap` of R9). -/
def aluAdd (a b : Word) : Word := BitVec.ofInt 64 (a.toInt + b.toInt)

/-- `wrap64(a − b)` (R99). -/
def aluSub (a b : Word) : Word := BitVec.ofInt 64 (a.toInt - b.toInt)

/-- `asr1(a)`, the arithmetic shift right by one bit, which is `floor(a / 2)` (R100, R11). -/
def asr1 (a : Word) : Word := a.sshiftRight 1

end Sys2Proof.Machine
end

