-- ==== Sys2Proof/Syntax.lean ====
section
/-! DEFINITION. The instruction set: one constructor per row of spec/opcode_table.json (R2, R74). -/

namespace Sys2Proof

/-- The closed set of 18 instructions (R2, R74). Every instruction word carries a 64-bit operand field (R71), so every
constructor does: `half` carries a field its computation does not use but the sign check covers, `halt` one that is
never examined. The operand's meaning is R73's. -/
inductive Instr where
  /-- `GET k`, opcode 0x00: one input value into `M[k]` (R120). -/
  | get (k : Word)
  /-- `PUT k`, opcode 0x01: `M[k]` to the output (R122). -/
  | put (k : Word)
  /-- `LOAD k`, opcode 0x02: `ACC <- M[k]` (R130). -/
  | load (k : Word)
  /-- `STORE k`, opcode 0x03: `M[k] <- ACC` (R131). -/
  | store (k : Word)
  /-- `LOADI k`, opcode 0x04: `ACC <- M[M[k]]` (R132). -/
  | loadi (k : Word)
  /-- `STOREI k`, opcode 0x05: `M[M[k]] <- ACC` (R133). -/
  | storei (k : Word)
  /-- `ADD k`, opcode 0x06: `ACC <- ACC + M[k]` (R141). -/
  | add (k : Word)
  /-- `SUB k`, opcode 0x07: `ACC <- ACC − M[k]` (R142). -/
  | sub (k : Word)
  /-- `ADDI k`, opcode 0x08: `ACC <- ACC + M[M[k]]` (R143). -/
  | addi (k : Word)
  /-- `SUBI k`, opcode 0x09: `ACC <- ACC − M[M[k]]` (R144). -/
  | subi (k : Word)
  /-- `SET k`, opcode 0x0A: `ACC <- k` (R145). -/
  | set (k : Word)
  /-- `HALF`, opcode 0x0B: `ACC <- floor(ACC / 2)` (R146); `k` is its unused, sign-checked operand field (R71). -/
  | half (k : Word)
  /-- `JUMP k`, opcode 0x0C: `pc <- pc + k` (R160). -/
  | jump (k : Word)
  /-- `JPOS k`, opcode 0x0D: jump by `k` when `ACC > 0` (R161). -/
  | jpos (k : Word)
  /-- `JZERO k`, opcode 0x0E: jump by `k` when `ACC = 0` (R162). -/
  | jzero (k : Word)
  /-- `JNEG k`, opcode 0x0F: jump by `k` when `ACC < 0` (R163). -/
  | jneg (k : Word)
  /-- `RTRN k`, opcode 0x10: `pc <- M[k]` (R164). -/
  | rtrn (k : Word)
  /-- `HALT`, opcode 0x11: end the run (R165); `k` is its ignored operand field (R71). -/
  | halt (k : Word)
deriving DecidableEq, Repr

end Sys2Proof
end

