-- ==== Sys2Proof/Decode.lean ====
section
/-! DEFINITION. The instruction word (30_encoding.md): its two fields, the decoder, and the encoder after it. -/

namespace Sys2Proof

/-- The opcode field `w[71:64]` (R70). -/
def opcodeField (w : InsnWord) : OpcodeField := w.extractLsb' 64 8

/-- The operand field `w[63:0]`, the `int64` operand `k` as it stands (R70, R72). -/
def operandField (w : InsnWord) : Word := w.extractLsb' 0 64

/-- Why the decoder gives no instruction: the verdict *unknown opcode* (R75, R76). -/
inductive DecodeReject where
  /-- An opcode field of 0x12 to 0xFF, with the word's two fields. -/
  | unknownOpcode (opcode : OpcodeField) (operand : Word)
deriving DecidableEq, Repr

/-- The decoder: the opcode field alone selects the instruction (R74), every word decodes to one of the 18 instructions
or to *unknown opcode* (R75). -/
def decode (w : InsnWord) : Except DecodeReject Instr :=
  match (opcodeField w).toNat with
  | 0x00 => .ok (.get (operandField w))
  | 0x01 => .ok (.put (operandField w))
  | 0x02 => .ok (.load (operandField w))
  | 0x03 => .ok (.store (operandField w))
  | 0x04 => .ok (.loadi (operandField w))
  | 0x05 => .ok (.storei (operandField w))
  | 0x06 => .ok (.add (operandField w))
  | 0x07 => .ok (.sub (operandField w))
  | 0x08 => .ok (.addi (operandField w))
  | 0x09 => .ok (.subi (operandField w))
  | 0x0A => .ok (.set (operandField w))
  | 0x0B => .ok (.half (operandField w))
  | 0x0C => .ok (.jump (operandField w))
  | 0x0D => .ok (.jpos (operandField w))
  | 0x0E => .ok (.jzero (operandField w))
  | 0x0F => .ok (.jneg (operandField w))
  | 0x10 => .ok (.rtrn (operandField w))
  | 0x11 => .ok (.halt (operandField w))
  | _ => .error (.unknownOpcode (opcodeField w) (operandField w))

/-- The opcode number of an instruction (the table of R74). -/
def Instr.opcode : Instr → OpcodeField
  | .get _ => 0x00#8
  | .put _ => 0x01#8
  | .load _ => 0x02#8
  | .store _ => 0x03#8
  | .loadi _ => 0x04#8
  | .storei _ => 0x05#8
  | .add _ => 0x06#8
  | .sub _ => 0x07#8
  | .addi _ => 0x08#8
  | .subi _ => 0x09#8
  | .set _ => 0x0A#8
  | .half _ => 0x0B#8
  | .jump _ => 0x0C#8
  | .jpos _ => 0x0D#8
  | .jzero _ => 0x0E#8
  | .jneg _ => 0x0F#8
  | .rtrn _ => 0x10#8
  | .halt _ => 0x11#8

/-- The operand field of an instruction (R71: every instruction has one). -/
def Instr.operand : Instr → Word
  | .get k | .put k | .load k | .store k | .loadi k | .storei k | .add k | .sub k | .addi k | .subi k => k
  | .set k | .half k | .jump k | .jpos k | .jzero k | .jneg k | .rtrn k | .halt k => k

/-- The encoder: `{opcode, operand}` with the opcode in the more significant bits (R70, R10). -/
def encode (i : Instr) : InsnWord := i.opcode ++ i.operand

/-- The opcode name of a snapshot or a listing: the mnemonic of R74; none for an illegal opcode (R76). -/
def mnemonicOf (opcode : OpcodeField) : Option String :=
  ["GET", "PUT", "LOAD", "STORE", "LOADI", "STOREI", "ADD", "SUB", "ADDI", "SUBI", "SET", "HALF", "JUMP", "JPOS", "JZERO",
    "JNEG", "RTRN", "HALT"][opcode.toNat]?

/-- The kinds of operand of R73 and R74. -/
inductive OperandKind where
  /-- An absolute data address, which must be at least 0. -/
  | address
  /-- The address of the cell that holds the effective address; it must be at least 0. -/
  | addressIndirect
  /-- A literal constant, any `int64`. -/
  | literal
  /-- A signed offset relative to the pc, any `int64`. -/
  | relativeOffset
  /-- Not used by the computation, but sign-checked (`HALF`). -/
  | unusedSignChecked
  /-- Never examined (`HALT`). -/
  | ignored
deriving DecidableEq, Repr

/-- The operand kind of each instruction (R73, the third column of R74). -/
def Instr.operandKind : Instr → OperandKind
  | .get _ | .put _ | .load _ | .store _ | .add _ | .sub _ | .rtrn _ => .address
  | .loadi _ | .storei _ | .addi _ | .subi _ => .addressIndirect
  | .set _ => .literal
  | .half _ => .unusedSignChecked
  | .jump _ | .jpos _ | .jzero _ | .jneg _ => .relativeOffset
  | .halt _ => .ignored

/-- What the decoder reads from the table's numbering: an instruction is ONE word of 72 bits, so bit 0 of `w` is bit 0 of
the instruction word. Bits of `w` at or above `nbits` are 0, and a number that needs more than 72 bits is no
instruction word. -/
def decodeTableWord (nbits w : Nat) : Option Instr :=
  if w % 2 ^ nbits < 2 ^ 72 then
    match decode (BitVec.ofNat 72 (w % 2 ^ nbits)) with
    | .ok i => some i
    | .error _ => none
  else none

end Sys2Proof
end

