-- ==== Sys2Proof/Config.lean ====
section
/-! DEFINITION. What an implementation of the CORE fixes (the parameters of R9, 00_scope.md) and the free values of the
points the spec leaves OPEN. The widths of R9 are the types of Word.lean and Machine/Ports.lean; `OVERFLOW_MODE = wrap`
(R99) is Machine/Alu.lean; `INDIRECT_NEG_MODE = fault` (R94) is Machine/Operands.lean; `COST(op)` (R97) is
Machine/CostMeter.lean: the values R9 gives for this hardware. -/

namespace Sys2Proof.Config

/-- One more than the largest data address: the valid addresses are `0 .. 2^63−1` (R55; `ADDR_W` = 63 of R9). -/
def addrLimit : Nat := 2 ^ 63

/-- `PROG_LEN_MAX`, the longest program the store holds: OPEN in R9 and D12, "at most 2^63".
DESIGN CHOICE (log 10, unsafe): the largest value the spec allows. -/
def progLenMax : Nat := 2 ^ 63

/-- `HAS_DEBUG`: the debug snapshot port is present, the default R9 and D23 give. -/
def hasDebug : Bool := true

/-- What `total_cost` shows when the exact total is past `2^64−1`: OPEN (`COST_OVERFLOW`, R27, D14, I7).
A free value (log 7): nothing is known of it. -/
opaque totalCostBeyond : Nat → BitVec 64

/-- What `io_cost` shows when the exact io cost is past `2^64−1`: OPEN (`COST_OVERFLOW`, R27, D14, I7).
A free value (log 7): nothing is known of it. -/
opaque ioCostBeyond : Nat → BitVec 64

end Sys2Proof.Config
end

