-- ==== Sys2Proof/Machine/State.lean ====
section
/-! DEFINITION. The state of the CORE (R19, R32, R35, R37 of 10_state.md) as plain data, what the host drives (R36, R200),
and the machine right after reset. -/

namespace Sys2Proof.Machine

/-- `RS`, the run state (R29). The code 3 of the port is never produced (I18), so there is no fourth constructor. -/
inductive RunState where
  /-- Steps execute only in this state (R90). -/
  | running
  /-- Terminal, by `HALT` (R165). -/
  | halted
  /-- Terminal, by a fault (R180). -/
  | fatal
deriving DecidableEq, Repr

/-- The three fault classes (R181). -/
inductive FatalKind where
  /-- At fetch, `pc < 0` or `pc >= PROG_LEN` (R92, R182). -/
  | invalidProgramCounter
  /-- An address operand or an effective address is negative (R93, R94, R183). -/
  | negativeAddress
  /-- An opcode field of 0x12 to 0xFF with an operand that is not negative (R95, R184). -/
  | unknownOpcode
deriving DecidableEq, Repr

/-- The data memory behind `dmem_*`: the cells at addresses of 1 or more that do not read 0, as (address, value) pairs.
The smallest thing an address names is a whole 64-bit cell (R52), so a pair holds a cell, not a byte (log 1).
Its canonical form is `Memory.wf` (Machine/Memory.lean). -/
abbrev Memory := List (Nat × Word)

/-- One request on the data-memory interface (R58). -/
inductive DmemRequest where
  /-- `dmem_we = 0`. -/
  | read (addr : Nat)
  /-- `dmem_we = 1`, `dmem_wdata = value`. -/
  | write (addr : Nat) (value : Word)
deriving DecidableEq, Repr

/-- What a step that has started and not completed is waiting for (R103): a value of the input source (R121), the output sink
(R123), or the acknowledgement of a data-memory request (R58). -/
inductive WaitReason where
  /-- A `GET`: `in_ready` is 1 and the source offers no value (R121). -/
  | input
  /-- A `PUT`: `out_valid` is 1 with this `out_data`, and the sink does not accept (R123). -/
  | output (data : Word)
  /-- A data-memory request with no `dmem_ack` (R58). -/
  | dataMemory (request : DmemRequest)
deriving DecidableEq, Repr

/-- One debug snapshot (R196): the `dbg_*` ports while `dbg_valid` is 1. -/
structure Snapshot where
  /-- `dbg_pc`, 63 bits: the index of the instruction just executed. -/
  pc : BitVec 63
  /-- `dbg_opcode`: its opcode field. -/
  opcode : OpcodeField
  /-- `dbg_operand`: its operand field. -/
  operand : Word
  /-- `dbg_acc`: `ACC` after the step. -/
  acc : Word
  /-- `dbg_acc_def`: whether `0 ∈ DEF`. -/
  accDef : Bool
deriving DecidableEq, Repr

/-- One access of a step (R65): a cell access (address 0 is `ACC`) or a channel transfer. -/
inductive Access where
  /-- The cell at `addr` was read and held `value`. -/
  | read (addr : Nat) (value : Word)
  /-- `value` was written to the cell at `addr`. -/
  | write (addr : Nat) (value : Word)
  /-- `value` was taken from the input channel. -/
  | input (value : Word)
  /-- `value` was handed to the output channel. -/
  | output (value : Word)
deriving DecidableEq, Repr

/-- A step in progress (R58, R211): one that has started and waits. Its completed accesses are not asked for again; none of its
changes is committed (R102). -/
structure Wait where
  /-- The instruction being executed. -/
  instr : Instr
  /-- What it waits for. -/
  reason : WaitReason
  /-- The accesses and transfers of the step that have completed, in order (R65): each acknowledged request (R58) and the input
  value a `GET` has taken (R121). -/
  done : List Access
deriving DecidableEq, Repr

/-- What the host drives (R36, R200). It is not state of the CORE (R19): it stands in State so that a step, a function of
State alone, can read it. -/
structure HostSide where
  /-- The `rst` input (R210). -/
  rst : Bool
  /-- The program store `P`; its length is `PROG_LEN` (R62). No step changes it (R68). -/
  program : List InsnWord
  /-- The values the input source will still offer, in order; empty: none ever (R121, D31). -/
  input : List Word
  /-- `out_ready`: the output sink accepts a value (R123). -/
  sinkReady : Bool
  /-- `dmem_ack`: how many data-memory requests the memory acknowledges while the model takes one step, each in its turn (R58;
  log 5). 0: none; a whole instruction makes at most two (R65). -/
  dmemAcks : Nat
deriving DecidableEq, Repr

/-- The state of the machine: the tuple of R19 with `M` split into `ACC` and the rest (R23, R57), the step in progress (R32, R58), the debug
port of R36, the model's own `trace`, and what the host drives. -/
structure State where
  /-- `RS`, the run state (R29). -/
  rs : RunState
  /-- The program counter, signed, 65 bits (R21). It counts instructions (R22). -/
  pc : Pc
  /-- `ACC`, the accumulator, which is `M[0]` (R23). -/
  acc : Word
  /-- `M[a]` for `a >= 1` (R51, R57). -/
  mem : Memory
  /-- `TC`, the total-cost counter. R27 lets a model hold it as an unbounded natural; the 64-bit port is
  `totalCostPort` (log 7). -/
  tc : Nat
  /-- `IC`, the io-cost counter; as `tc` (R27, log 7). -/
  ic : Nat
  /-- `FC`, the fault class; none is code 0 (R31). -/
  fc : Option FatalKind
  /-- `FPC`, the pc of the step that faulted (R31). -/
  fpc : Pc
  /-- `DEF`, the defined addresses in ascending order (R33, R197). -/
  defined : List Nat
  /-- `OUT`, the values handed to the output sink so far, oldest first (R32). -/
  out : List Word
  /-- The step in progress, when one waits (R32, R58, R211); none: no step is in progress. Whether it is the I/O wait of R32 is
  `State.ioWait`. -/
  wait : Option Wait
  /-- The debug snapshot port; none: `dbg_valid` is 0 (R36, R196; log 6). -/
  dbg : Option Snapshot
  /-- The model's own: the accesses of the last completed step, in order (R65; log 8). No step reads it. -/
  trace : List Access
  /-- What the host drives. -/
  host : HostSide
deriving DecidableEq, Repr

/-- Why a step stops without a next state. The faults of the SPEC are not here: they are the Fatal run state, a next state
(R180). -/
inductive Fault where
  /-- Raised by the memory operations for an address outside `0 .. 2^63−1`: R13 requires that range of every access. No
  instruction forms such an address (R55). Safe: the machine stops. -/
  | addressOutsideSpace
deriving DecidableEq, Repr

/-- Why a step is given no meaning. -/
inductive Refusal where
  /-- Raised by `exec` for an instruction that has no meaning yet. Safe: nothing can be proved of it. -/
  | notModelled (mnemonic : String)
  /-- Raised by the engine loop when `PROG_LEN` is more than `PROG_LEN_MAX`: I9 of 93_implementation_defined.md treats such
  a program as `refuse` (log 10). Safe: nothing can be proved of it. -/
  | programTooLong
deriving DecidableEq, Repr

/-- What a step answers. -/
abbrev StepOutcome := Host.Outcome State Fault Refusal

/-- How the execute part of a step ends: the four ways of R103, and the model's own stop. -/
inductive StepEnd where
  /-- The work is done; `s` is the working state, not yet charged. -/
  | completes (s : State)
  /-- `HALT` (R165). -/
  | halts
  /-- `raise Fatal(kind)` (R15, R180). -/
  | raises (kind : FatalKind)
  /-- The other side of a handshake has not completed the transfer (R121, R123, R58); `s` is the working state, whose trace holds
  the accesses that have completed. -/
  | waits (reason : WaitReason) (s : State)
  /-- The model's own stop. -/
  | stops (reason : Fault)
deriving DecidableEq, Repr

/-- What the host drives right after reset, before it has loaded anything: DESIGN CHOICE (log 2, 3, 4, 5, unsafe), the spec
gives no program, no input and no handshake level. `rst` is 0: the first step starts after it returns to 0 (R210). -/
def HostSide.idle : HostSide where
  rst := false
  program := []
  input := []
  sinkReady := true
  dmemAcks := 2

/-- The machine right after reset: every element at the value of R37. `trace` is the model's own (log 8). -/
def State.reset : State where
  rs := .running
  pc := 0
  acc := 0
  mem := []
  tc := 0
  ic := 0
  fc := none
  fpc := 0
  defined := []
  out := []
  wait := none
  dbg := none
  trace := []
  host := HostSide.idle

end Sys2Proof.Machine
end

