-- ==== Sys2Proof/Machine/CostMeter.lean ====
section
/-! DEFINITION. The cost meter (R26 to R28 of 10_state.md; R96, R97 of 40_sequencer.md). -/

namespace Sys2Proof.Machine

/-- `COST(op)`, the table of R97; `SUBI` is 12 (D29). -/
def cost : Instr → Nat
  | .get _ => 100
  | .put _ => 100
  | .load _ => 10
  | .store _ => 10
  | .loadi _ => 20
  | .storei _ => 20
  | .add _ => 10
  | .sub _ => 10
  | .addi _ => 20
  | .subi _ => 12
  | .set _ => 50
  | .half _ => 5
  | .jump _ => 1
  | .jpos _ => 1
  | .jzero _ => 1
  | .jneg _ => 1
  | .rtrn _ => 10
  | .halt _ => 0

/-- What a completed instruction adds to `IC`: 100 for `GET` and `PUT`, nothing for any other (R27, R96, R97). -/
def ioCost : Instr → Nat
  | .get _ | .put _ => 100
  | .load _ | .store _ | .loadi _ | .storei _ | .add _ | .sub _ | .addi _ | .subi _ | .set _ | .half _ => 0
  | .jump _ | .jpos _ | .jzero _ | .jneg _ | .rtrn _ | .halt _ => 0

/-- `charge(op)` (R15, R96). -/
def charge (i : Instr) (s : State) : State := { s with tc := s.tc + cost i, ic := s.ic + ioCost i }

end Sys2Proof.Machine
end

