-- ==== Sys2Proof/Machine/Memory.lean ====
section
/-! DEFINITION. The data memory as a canonical list of cells, the defined-address set as a rising list, and the address
decoder that sends address 0 to the accumulator (20_memory.md). -/

namespace Sys2Proof.Machine

/-- What an address that is not listed reads as: 0 (R51, "Absent addresses read as 0"). -/
def Memory.unlisted : Word := 0

/-- The value of the cell at `a` (R51). -/
def Memory.read : Memory → Nat → Word
  | [], _ => Memory.unlisted
  | (b, w) :: rest, a => if a = b then w else Memory.read rest a

/-- Stores `v` in the cell at `a` (R51). A value that an unlisted address reads as is not listed, and the addresses stay in
rising order, so equal memories are equal lists. -/
def Memory.write : Memory → Nat → Word → Memory
  | [], a, v => if v = Memory.unlisted then [] else [(a, v)]
  | (b, w) :: rest, a, v =>
    if a < b then (if v = Memory.unlisted then (b, w) :: rest else (a, v) :: (b, w) :: rest)
    else if a = b then (if v = Memory.unlisted then rest else (a, v) :: rest)
    else (b, w) :: Memory.write rest a v

/-- The addresses rise from at least `lo`, stay below `2^63` (R55), and no listed value is what an unlisted address reads
as. -/
def Memory.wfFrom : Nat → Memory → Bool
  | _, [] => true
  | lo, (a, v) :: rest =>
    decide (lo ≤ a) && decide (a < Config.addrLimit) && decide (v ≠ Memory.unlisted) && Memory.wfFrom (a + 1) rest

/-- The canonical form of the data memory. Address 0 is never listed: it never appears on `dmem_addr` (R57). -/
def Memory.wf (m : Memory) : Bool := Memory.wfFrom 1 m

/-- Adds an address to a rising list of addresses (R33). -/
def AddrSet.insert : Nat → List Nat → List Nat
  | a, [] => [a]
  | a, b :: rest => if a < b then a :: b :: rest else if a = b then b :: rest else b :: AddrSet.insert a rest

/-- The addresses rise from at least `lo` and stay below `2^63`. -/
def AddrSet.wfFrom : Nat → List Nat → Bool
  | _, [] => true
  | lo, a :: rest => decide (lo ≤ a) && decide (a < Config.addrLimit) && AddrSet.wfFrom (a + 1) rest

/-- The canonical form of `DEF`: ascending order (R33, R197). -/
def AddrSet.wf (d : List Nat) : Bool := AddrSet.wfFrom 0 d

/-- `M[a]`: the address decoder sends address 0 to `ACC` and every other address to the data memory (R23, R57). -/
def State.cell (s : State) (a : Nat) : Word := if a = 0 then s.acc else Memory.read s.mem a

/-- `M[a] <- v`, through the same decoder (R23, R57). -/
def State.setCell (s : State) (a : Nat) (v : Word) : State :=
  { s with acc := if a = 0 then v else s.acc, mem := if a = 0 then s.mem else Memory.write s.mem a v }

/-- `a` enters `DEF` (R33). -/
def State.define (s : State) (a : Nat) : State := { s with defined := AddrSet.insert a s.defined }

/-- Notes an access in the model's own trace (R65, log 8). -/
def State.note (s : State) (x : Access) : State := { s with trace := s.trace ++ [x] }

end Sys2Proof.Machine
end

