-- ==== Sys2Proof/Machine/Ops.lean ====
section
/-! DEFINITION. The primitives every rule uses (R13, R14, R15 of 00_scope.md): memory and channel access, raising a fault,
halting, waiting, and the commit of a step (R102). An access is written in the order of the rule's pseudocode: it takes
what comes after it as its last argument, which runs only when the access completes. -/

namespace Sys2Proof.Machine

/-- How many of these accesses were requests on the data-memory interface: those to an address of 1 or more (R57). -/
def requestsMade : List Access → Nat
  | [] => 0
  | .read a _ :: rest => (if a = 0 then 0 else 1) + requestsMade rest
  | .write a _ :: rest => (if a = 0 then 0 else 1) + requestsMade rest
  | .input _ :: rest => requestsMade rest
  | .output _ :: rest => requestsMade rest

/-- The input value among these accesses, if they hold one. -/
def inputAmong : List Access → Option Word
  | [] => none
  | .input v :: _ => some v
  | .read _ _ :: rest => inputAmong rest
  | .write _ _ :: rest => inputAmong rest
  | .output _ :: rest => inputAmong rest

/-- How many requests of the step in progress the memory has acknowledged before this look at it (R58). -/
def State.acknowledged (s : State) : Nat :=
  match s.wait with
  | some w => requestsMade w.done
  | none => 0

/-- The input value that the step in progress has taken before this look at it (R121). -/
def State.takenInput (s : State) : Option Word :=
  match s.wait with
  | some w => inputAmong w.done
  | none => none

/-- The next access of the working step, to the cell at `a`, completes: address 0 is the accumulator and needs no request (R57);
any other address is one request, which completes when the memory has acknowledged it, before this look or in it (R58). -/
abbrev State.Granted (s : State) (a : Nat) : Prop :=
  a = 0 ∨ requestsMade s.trace < s.acknowledged + s.host.dmemAcks

/-- `MemRead(a, 1)` (R13): gives `M[a]`, adds `a` to `DEF`. An access to `a >= 1` is a request on the data-memory interface
and waits for its own acknowledgement (R57, R58); address 0 is the accumulator and never waits. -/
def memRead (a : Nat) (s : State) (andThen : Word → State → StepEnd) : StepEnd :=
  if a < Config.addrLimit then
    if s.Granted a then andThen (s.cell a) ((s.define a).note (.read a (s.cell a)))
    else .waits (.dataMemory (.read a)) s
  else .stops .addressOutsideSpace

/-- `MemWrite(a, 1, v)` (R13): `M[a] <- v`, adds `a` to `DEF`; waits as `memRead` does. -/
def memWrite (a : Nat) (v : Word) (s : State) (andThen : State → StepEnd) : StepEnd :=
  if a < Config.addrLimit then
    if s.Granted a then andThen (((s.setCell a v).define a).note (.write a v))
    else .waits (.dataMemory (.write a v)) s
  else .stops .addressOutsideSpace

/-- Takes the first value of the input source: it is consumed. -/
def State.consumeInput (s : State) (rest : List Word) : State := { s with host := { s.host with input := rest } }

/-- The value the next input transfer gives and what the source offers after it (R121): the value the step in progress has
already taken, or the source's next. -/
def State.nextInput (s : State) : Option (Word × List Word) :=
  match s.takenInput, s.host.input with
  | some v, rest => some (v, rest)
  | none, v :: rest => some (v, rest)
  | none, [] => none

/-- `InRead()` (R14, R121): takes the next value of the input source, once in a step, or waits while none is offered. -/
def inRead (s : State) (andThen : Word → State → StepEnd) : StepEnd :=
  match s.nextInput with
  | some (v, rest) => andThen v ((s.consumeInput rest).note (.input v))
  | none => .waits .input s

/-- `OUT <- OUT ++ [v]` (R122). -/
def State.emit (s : State) (v : Word) : State := { s with out := s.out ++ [v] }

/-- `OutWrite(v)` (R14, R123): hands `v` to the sink, or waits while the sink does not accept. -/
def outWrite (v : Word) (s : State) (andThen : State → StepEnd) : StepEnd :=
  if s.host.sinkReady = true then andThen ((s.emit v).note (.output v)) else .waits (.output v) s

/-- The working state of a look at a step: no access made yet. A step in progress goes through its accesses again from the first,
and those that have completed do so at once. -/
def State.fresh (s : State) : State := { s with trace := [] }

/-- Taking a fault, `raise Fatal(kind)` (R15, R180): `RS <- Fatal`, `FC <- kind`, `FPC <- pc`, and nothing else of R19. No wait
is held after it and no snapshot is emitted (R196). There is no return from it: nothing but reset leaves Fatal (R189). -/
def raiseFatal (kind : FatalKind) (s : State) : State :=
  { s with rs := .fatal, fc := some kind, fpc := s.pc, wait := none, dbg := none, trace := [] }

/-- `halt` (R15, R165): `RS <- Halted`, pc and counters unchanged, no snapshot. -/
def haltRun (s : State) : State := { s with rs := .halted, wait := none, dbg := none, trace := [] }

/-- A step that waits (R32, R102): nothing of R19 has changed. The step in progress is held with the accesses it has completed,
no snapshot is on the port, and an input value it took is gone from the source. -/
def holdWait (i : Instr) (reason : WaitReason) (start mid : State) : State :=
  { start with
    host := mid.host
    wait := some { instr := i, reason := reason, done := mid.trace }
    dbg := none
    trace := [] }

/-- The snapshot of a completed step (R196): the executed instruction's index and fields, and the new `ACC`. -/
def snapshotOf (i : Instr) (start done : State) : Snapshot where
  pc := start.pc.setWidth 63
  opcode := i.opcode
  operand := i.operand
  acc := done.acc
  accDef := decide (0 ∈ done.defined)

/-- Puts the snapshot on the port when the port exists (R195, R196); no wait is held any more. -/
def State.publish (s : State) (d : Snapshot) : State :=
  { s with wait := none, dbg := if Config.hasDebug = true then some d else none }

/-- A step that completes (R91, R102): charge, commit, then the snapshot. `start` is the state the step began in, `done` the
working state with all the instruction's changes. -/
def retire (i : Instr) (start done : State) : State := (charge i done).publish (snapshotOf i start done)

/-- How a step's end becomes the machine's next state (R102, R103): only a step that completes commits its working state;
every other end starts again from the state the step began in. -/
def settle (i : Instr) (s : State) : StepEnd → StepOutcome
  | .completes done => .next (retire i s done)
  | .halts => .next (haltRun s)
  | .raises kind => .next (raiseFatal kind s)
  | .waits reason mid => .next (holdWait i reason s mid)
  | .stops reason => .fault reason

/-- The frame of every instruction's meaning: run its work from a fresh trace and settle its end (R91 steps 2 to 4, R102). -/
def perform (i : Instr) (s : State) (work : State → StepEnd) : StepOutcome := settle i s (work s.fresh)

/-- Reset (R211, R213): every element takes the value of R37, in any run state, and a step in progress is dropped. What the
host drives stays as the host drives it. The host brings the memory behind `dmem_*` to zero by then (R213, log 9). -/
def applyReset (s : State) : State := { State.reset with host := s.host }

end Sys2Proof.Machine
end

