-- ==== Sys2Proof/Machine/Operands.lean ====
section
/-! DEFINITION. The operand forms of R73 and the address-validity checker (R93, R94 of 40_sequencer.md). The literal of `SET`
and the offset of the relative jumps are the operand as it stands (R72) and need no check; the operand of `HALT` is never
examined. -/

namespace Sys2Proof.Machine

/-- The address-validity checker: a negative `int64` raises NegativeAddress, any other is the address it names (R55, R93,
R94). -/
def checkedAddress (v : Word) (andThen : Nat → StepEnd) : StepEnd :=
  if v.toInt < 0 then .raises .negativeAddress else andThen v.toNat

/-- An absolute address operand: the operand-sign check (R93). -/
def addressOperand (k : Word) (andThen : Nat → StepEnd) : StepEnd := checkedAddress k andThen

/-- The unused operand of `HALF`: sign-checked and then ignored (R71, R93). -/
def unusedOperand (k : Word) (andThen : StepEnd) : StepEnd := checkedAddress k fun _ => andThen

/-- An indirect operand: the operand-sign check, one read of the pointer cell `M[k]`, the effective-address check (R93, R94).
The address that comes out is used once, as the address of data (R134). -/
def indirectOperand (k : Word) (s : State) (andThen : Nat → State → StepEnd) : StepEnd :=
  addressOperand k fun a =>
  memRead a s fun e s =>
  checkedAddress e fun ea => andThen ea s

end Sys2Proof.Machine
end

