-- ==== Sys2Proof/Machine/Sequencer.lean ====
section
/-! DEFINITION. The program-counter sequencer (R92, R95, R98 of 40_sequencer.md): the next pc, the fetch, the step of an
unknown opcode, and the word the host loads where the next fetch finds it. -/

namespace Sys2Proof.Machine

/-- `pc <- pc + 1` (R98). -/
def advance (s : State) : State := { s with pc := s.pc + 1 }

/-- `pc <- pc + k`, exact in 65 bits (R98, R22): the 64-bit offset is sign-extended first. -/
def jumpBy (k : Word) (s : State) : State := { s with pc := s.pc + k.signExtend 65 }

/-- `pc <- t`, an absolute index from memory, not checked until the next fetch (R164, R166). -/
def jumpTo (t : Word) (s : State) : State := { s with pc := t.signExtend 65 }

/-- The pc after a conditional jump (R98, R161 to R163). -/
def branch (taken : Bool) (k : Word) (s : State) : State := if taken = true then jumpBy k s else advance s

/-- The fetch (R92, R63): `P[pc]` when `0 <= pc < PROG_LEN`, none otherwise. -/
def fetch (s : State) : Option InsnWord := if s.pc.toInt < 0 then none else s.host.program[s.pc.toNat]?

/-- The step of a pc out of range: `Fatal(InvalidProgramCounter)` with `FPC = pc` (R92). -/
def fetchFault (s : State) : StepOutcome := .next (raiseFatal .invalidProgramCounter s)

/-- The step of an unknown opcode: the operand-sign check comes first, then `Fatal(UnknownOpcode)` (R76, R95, R186). -/
def execUnknown (k : Word) (s : State) : StepOutcome :=
  .next (raiseFatal (if k.toInt < 0 then .negativeAddress else .unknownOpcode) s)

/-- The word an assembler writes for `HALT` (R82). -/
def haltWord : InsnWord := 0x11_0000000000000000#72

/-- A program store with `w` at index `n`: indices up to `n` that the store did not have hold `HALT`. -/
def placeWord (n : Nat) (w : InsnWord) (p : List InsnWord) : List InsnWord :=
  (p ++ List.replicate (n + 1 - p.length) haltWord).set n w

/-- The state in which the next step fetches `w`: reset released, Running with no step in progress, the pc inside the store, and
`w` loaded at it (R214; log 2). -/
def loadAtFetch (w : InsnWord) (s : State) : State :=
  let pc : Pc := if 0 ≤ s.pc.toInt ∧ s.pc.toNat < Config.progLenMax then s.pc else 0
  let kept := if s.host.program.length ≤ Config.progLenMax then s.host.program else []
  { s with rs := .running, pc := pc, wait := none, host := { s.host with rst := false, program := placeWord pc.toNat w kept } }

end Sys2Proof.Machine
end

