-- ==== Sys2Proof/Machine/Arithmetic.lean ====
section
/-! DEFINITION. Arithmetic instructions (43_arithmetic.md). -/

namespace Sys2Proof.Machine

/-- `ADD k` (R141): `ACC <- alu_add(ACC, M[k])`. -/
def execAdd (k : Word) (s : State) : StepOutcome :=
  perform (.add k) s fun s =>
  addressOperand k fun addr =>
  memRead 0 s fun a s =>
  memRead addr s fun b s =>
  memWrite 0 (aluAdd a b) s fun s =>
  .completes (advance s)

/-- `SUB k` (R142): `ACC <- alu_sub(ACC, M[k])`. -/
def execSub (k : Word) (s : State) : StepOutcome :=
  perform (.sub k) s fun s =>
  addressOperand k fun addr =>
  memRead 0 s fun a s =>
  memRead addr s fun b s =>
  memWrite 0 (aluSub a b) s fun s =>
  .completes (advance s)

/-- `ADDI k` (R143): `ACC <- alu_add(ACC, M[M[k]])`. -/
def execAddi (k : Word) (s : State) : StepOutcome :=
  perform (.addi k) s fun s =>
  indirectOperand k s fun ea s =>
  memRead ea s fun b s =>
  memRead 0 s fun a s =>
  memWrite 0 (aluAdd a b) s fun s =>
  .completes (advance s)

/-- `SUBI k` (R144): `ACC <- alu_sub(ACC, M[M[k]])`. -/
def execSubi (k : Word) (s : State) : StepOutcome :=
  perform (.subi k) s fun s =>
  indirectOperand k s fun ea s =>
  memRead ea s fun b s =>
  memRead 0 s fun a s =>
  memWrite 0 (aluSub a b) s fun s =>
  .completes (advance s)

/-- `SET k` (R145): `ACC <- k`, any literal. -/
def execSet (k : Word) (s : State) : StepOutcome :=
  perform (.set k) s fun s =>
  memWrite 0 k s fun s =>
  .completes (advance s)

/-- `HALF` (R146): `ACC <- floor(ACC / 2)`; its operand field is sign-checked and not used (R71). -/
def execHalf (k : Word) (s : State) : StepOutcome :=
  perform (.half k) s fun s =>
  unusedOperand k <|
  memRead 0 s fun a s =>
  memWrite 0 (asr1 a) s fun s =>
  .completes (advance s)

end Sys2Proof.Machine
end

