-- ==== Sys2Proof/Machine/Flags.lean ====
section
/-! DEFINITION. The CORE has no flags or condition codes (R25). What the conditional jumps test are the three predicates of
the accumulator that the condition unit computes and does not store (R101). -/

namespace Sys2Proof.Machine

/-- `pos = (ACC > 0)` as a signed `int64` (R101). -/
def condPos (acc : Word) : Bool := decide (0 < acc.toInt)

/-- `zero = (ACC == 0)` (R101). -/
def condZero (acc : Word) : Bool := decide (acc.toInt = 0)

/-- `neg = (ACC < 0)` as a signed `int64` (R101). -/
def condNeg (acc : Word) : Bool := decide (acc.toInt < 0)

end Sys2Proof.Machine
end

