-- ==== Sys2Proof/Machine/Control.lean ====
section
/-! DEFINITION. Control-transfer instructions (44_control.md). No target is checked here: the next fetch checks it (R166). -/

namespace Sys2Proof.Machine

/-- `JUMP k` (R160): `pc <- pc + k`. -/
def execJump (k : Word) (s : State) : StepOutcome :=
  perform (.jump k) s fun s =>
  .completes (jumpBy k s)

/-- `JPOS k` (R161): the jump is taken when `ACC > 0`. -/
def execJpos (k : Word) (s : State) : StepOutcome :=
  perform (.jpos k) s fun s =>
  memRead 0 s fun a s =>
  .completes (branch (condPos a) k s)

/-- `JZERO k` (R162): the jump is taken when `ACC = 0`. -/
def execJzero (k : Word) (s : State) : StepOutcome :=
  perform (.jzero k) s fun s =>
  memRead 0 s fun a s =>
  .completes (branch (condZero a) k s)

/-- `JNEG k` (R163): the jump is taken when `ACC < 0`. -/
def execJneg (k : Word) (s : State) : StepOutcome :=
  perform (.jneg k) s fun s =>
  memRead 0 s fun a s =>
  .completes (branch (condNeg a) k s)

/-- `RTRN k` (R164): `pc <- M[k]`, absolute. -/
def execRtrn (k : Word) (s : State) : StepOutcome :=
  perform (.rtrn k) s fun s =>
  addressOperand k fun a =>
  memRead a s fun t s =>
  .completes (jumpTo t s)

/-- `HALT` (R165): `RS <- Halted`; the operand field is never examined. -/
def execHalt (k : Word) (s : State) : StepOutcome :=
  perform (.halt k) s fun _ => .halts

end Sys2Proof.Machine
end

