-- ==== Sys2Proof/Machine/InputOutput.lean ====
section
/-! DEFINITION. Input and output instructions (41_io.md). -/

namespace Sys2Proof.Machine

/-- `GET k` (R120): waits for an input value, writes it to `M[k]`. -/
def execGet (k : Word) (s : State) : StepOutcome :=
  perform (.get k) s fun s =>
  addressOperand k fun a =>
  inRead s fun v s =>
  memWrite a v s fun s =>
  .completes (advance s)

/-- `PUT k` (R122): reads `M[k]`, waits for the sink, hands it the value. -/
def execPut (k : Word) (s : State) : StepOutcome :=
  perform (.put k) s fun s =>
  addressOperand k fun a =>
  memRead a s fun v s =>
  outWrite v s fun s =>
  .completes (advance s)

end Sys2Proof.Machine
end

