-- ==== Sys2Proof/Machine/LoadStore.lean ====
section
/-! DEFINITION. Load and store instructions (42_load_store.md). -/

namespace Sys2Proof.Machine

/-- `LOAD k` (R130): `ACC <- M[k]`. -/
def execLoad (k : Word) (s : State) : StepOutcome :=
  perform (.load k) s fun s =>
  addressOperand k fun a =>
  memRead a s fun v s =>
  memWrite 0 v s fun s =>
  .completes (advance s)

/-- `STORE k` (R131): `M[k] <- ACC`. -/
def execStore (k : Word) (s : State) : StepOutcome :=
  perform (.store k) s fun s =>
  addressOperand k fun a =>
  memRead 0 s fun v s =>
  memWrite a v s fun s =>
  .completes (advance s)

/-- `LOADI k` (R132): `ACC <- M[M[k]]`. -/
def execLoadi (k : Word) (s : State) : StepOutcome :=
  perform (.loadi k) s fun s =>
  indirectOperand k s fun ea s =>
  memRead ea s fun v s =>
  memWrite 0 v s fun s =>
  .completes (advance s)

/-- `STOREI k` (R133): `M[M[k]] <- ACC`. -/
def execStorei (k : Word) (s : State) : StepOutcome :=
  perform (.storei k) s fun s =>
  indirectOperand k s fun ea s =>
  memRead 0 s fun v s =>
  memWrite ea v s fun s =>
  .completes (advance s)

end Sys2Proof.Machine
end

