-- ==== Sys2Proof/Machine/Dispatch.lean ====
section
/-! DEFINITION. One arm per instruction: the meaning it calls. Precondition of every meaning: `RS` = Running and the word has
been fetched (R91); the engine loop (Machine/Engine.lean) sees to it. -/

namespace Sys2Proof.Machine

def exec (i : Instr) (s : State) : Host.Outcome State Fault Refusal :=
  match i with
  | .get k => Sys2Proof.Machine.execGet k s
  | .put k => Sys2Proof.Machine.execPut k s
  | .load k => Sys2Proof.Machine.execLoad k s
  | .store k => Sys2Proof.Machine.execStore k s
  | .loadi k => Sys2Proof.Machine.execLoadi k s
  | .storei k => Sys2Proof.Machine.execStorei k s
  | .add k => Sys2Proof.Machine.execAdd k s
  | .sub k => Sys2Proof.Machine.execSub k s
  | .addi k => Sys2Proof.Machine.execAddi k s
  | .subi k => Sys2Proof.Machine.execSubi k s
  | .set k => Sys2Proof.Machine.execSet k s
  | .half k => Sys2Proof.Machine.execHalf k s
  | .jump k => Sys2Proof.Machine.execJump k s
  | .jpos k => Sys2Proof.Machine.execJpos k s
  | .jzero k => Sys2Proof.Machine.execJzero k s
  | .jneg k => Sys2Proof.Machine.execJneg k s
  | .rtrn k => Sys2Proof.Machine.execRtrn k s
  | .halt k => Sys2Proof.Machine.execHalt k s

end Sys2Proof.Machine
end

