-- ==== Sys2Proof/Machine/Engine.lean ====
section
/-! DEFINITION. The engine loop's one pass (R90, R91, R210): what Machine/Step.lean calls. -/

namespace Sys2Proof.Machine

/-- What a fetched word does: a known opcode runs its instruction, an unknown one takes its fault (R91 steps 2 to 4). -/
def runWord (w : InsnWord) (s : State) : StepOutcome :=
  match decode w with
  | .ok i => exec i s
  | .error (.unknownOpcode _ k) => execUnknown k s

/-- One step while Running (R91): the fetch range check, then the fetched word. A program longer than the store can hold has
no meaning (I9, log 10). -/
def runStep (s : State) : StepOutcome :=
  if s.host.program.length ≤ Config.progLenMax then
    match fetch s with
    | some w => runWord w s
    | none => fetchFault s
  else .refused .programTooLong

/-- One pass of the engine: while `rst` is 1 every element takes its reset value (R210, R211); while `RS` is not Running no
step is performed and every element holds its value (R90). -/
def engineStep (s : State) : StepOutcome :=
  if s.host.rst = true then .next (applyReset s)
  else
    match s.rs with
    | .running => runStep s
    | .halted => .next s
    | .fatal => .next s

end Sys2Proof.Machine
end

