-- ==== Sys2Proof/Machine/Step.lean ====
section
/-! DEFINITION. The machine's step, and the state in which the next step runs a given word. -/

namespace Sys2Proof.Machine

/-- One step of the machine (R90, R91). -/
def step (s : State) : Host.Outcome State Fault Refusal := engineStep s

/-- `s` with the instruction of `nbits` bits whose number is `w` loaded where the next step fetches (the host's load of R214;
log 2). Bits at or above `nbits` are 0. -/
def State.withFetchWord (s : State) (nbits w : Nat) : State := loadAtFetch (BitVec.ofNat 72 (w % 2 ^ nbits)) s

end Sys2Proof.Machine
end

