-- ==== Sys2Proof/Machine/Ports.lean ====
section
/-! DEFINITION. The block's ports as functions of State (R35, R36 of 10_state.md; R181, R192, R196, R197 of 60_exceptions.md)
and the host's actions (R200). Cycle-level handshake signals that no architectural state fixes are left out (log 12). -/

namespace Sys2Proof.Machine

/-- `run_state`: 0 Running, 1 Halted, 2 Fatal; 3 is never produced (R29). -/
def runStatePort (s : State) : BitVec 2 :=
  match s.rs with
  | .running => 0
  | .halted => 1
  | .fatal => 2

/-- The `FC` code of a fault class (R181). -/
def faultCode : Option FatalKind → BitVec 2
  | none => 0
  | some .invalidProgramCounter => 1
  | some .negativeAddress => 2
  | some .unknownOpcode => 3

/-- `fault_class` (R31, R181). -/
def faultClassPort (s : State) : BitVec 2 := faultCode s.fc

/-- The source's message for a fault class, where it gives one (R181). -/
def faultMessage : FatalKind → Option String
  | .invalidProgramCounter => some "invalid instruction address"
  | .negativeAddress => some "negative memory address"
  | .unknownOpcode => none

/-- `fault_pc` (R31). -/
def faultPcPort (s : State) : Pc := s.fpc

/-- `total_cost`: the exact total below `2^64`; past it the value is OPEN (R27, D14; log 7). -/
def totalCostPort (s : State) : BitVec 64 :=
  if s.tc < 2 ^ 64 then BitVec.ofNat 64 s.tc else Config.totalCostBeyond s.tc

/-- `io_cost`: as `total_cost` (R27, D14; log 7). -/
def ioCostPort (s : State) : BitVec 64 :=
  if s.ic < 2 ^ 64 then BitVec.ofNat 64 s.ic else Config.ioCostBeyond s.ic

/-- The step in progress is a `GET` or a `PUT` whose channel transfer has not completed (R32): a `GET` that has taken no input
value, or any waiting `PUT`, since its transfer is its last access (R65). -/
def Wait.channelPending (w : Wait) : Bool :=
  match w.instr with
  | .get _ => (inputAmong w.done).isNone
  | .put _ => true
  | .load _ | .store _ | .loadi _ | .storei _ | .add _ | .sub _ | .addi _ | .subi _ | .set _ | .half _ => false
  | .jump _ | .jpos _ | .jzero _ | .jneg _ | .rtrn _ | .halt _ => false

/-- The I/O wait condition (R32): a `GET` or `PUT` step has started and its channel transfer has not completed. -/
def State.ioWait (s : State) : Bool :=
  match s.wait with
  | some w => w.channelPending
  | none => false

/-- What the step in progress presents on a port: nothing while `rst` is 1 (R210). -/
def State.presented (s : State) : Option WaitReason := if s.host.rst = true then none else s.wait.map Wait.reason

/-- `in_ready` while a step waits (R121). -/
def inReadyPort (s : State) : Bool := s.presented == some .input

/-- `out_valid` with `out_data` while a step waits (R123). -/
def outOfferedPort (s : State) : Option Word :=
  match s.presented with
  | some (.output v) => some v
  | some .input => none
  | some (.dataMemory _) => none
  | none => none

/-- `dmem_req` with its operands while a step waits (R58). -/
def dmemPendingPort (s : State) : Option DmemRequest :=
  match s.presented with
  | some (.dataMemory r) => some r
  | some .input => none
  | some (.output _) => none
  | none => none

/-- The requests that the last completed step made on the data-memory interface, in order: its accesses to `a >= 1` (R57, R65). -/
def dmemRequests (s : State) : List DmemRequest :=
  s.trace.filterMap fun x =>
    match x with
    | .read a _ => if a = 0 then none else some (.read a)
    | .write a v => if a = 0 then none else some (.write a v)
    | .input _ => none
    | .output _ => none

/-- `prog_len`: the length of the loaded program, as the host drives it (R36, R214). -/
def progLenPort (s : State) : BitVec 64 := BitVec.ofNat 64 s.host.program.length

/-- `imem_addr` of the next fetch: a pc that passes the range check of a Running machine; an out-of-range pc is never
presented (R63). -/
def imemAddrPort (s : State) : Option (BitVec 63) :=
  match s.host.rst, s.rs, fetch s with
  | false, .running, some _ => some (s.pc.setWidth 63)
  | _, _, _ => none

/-- `dbg_valid` (R196). -/
def dbgValidPort (s : State) : Bool := s.dbg.isSome

/-- The opcode name of a snapshot: the mnemonic of R74 for `dbg_opcode` (R196). -/
def Snapshot.opcodeName (d : Snapshot) : Option String := mnemonicOf d.opcode

/-- The defined-address enumeration of a snapshot: `(a, M[a])` for every `a` in `DEF`, ascending (R197). -/
def State.enumeration (s : State) : List (Nat × Word) := s.defined.map fun a => (a, s.cell a)

/-- The part of the enumeration that the memory subsystem supplies: the addresses above 0 (R197). -/
def State.memoryEnumeration (s : State) : List (Nat × Word) :=
  (s.defined.filter fun a => decide (a ≠ 0)).map fun a => (a, Memory.read s.mem a)

/-- The final report of a run (R192). -/
structure FinalReport where
  runState : BitVec 2
  totalCost : BitVec 64
  ioCost : BitVec 64
  faultClass : BitVec 2
  faultPc : Pc
  output : List Word
deriving DecidableEq, Repr

/-- A run that has ended has a final report; a run that goes on, or waits for ever, has none (R192). -/
def finalReport (s : State) : Option FinalReport :=
  match s.rs with
  | .running => none
  | .halted => some ⟨runStatePort s, totalCostPort s, ioCostPort s, faultClassPort s, faultPcPort s, s.out⟩
  | .fatal => some ⟨runStatePort s, totalCostPort s, ioCostPort s, faultClassPort s, faultPcPort s, s.out⟩

/-- The host loads the program store and drives `prog_len` (R214, before `rst` returns to 0). -/
def hostLoad (p : List InsnWord) (s : State) : State := { s with host := { s.host with program := p } }

/-- The host drives `rst` (R210). -/
def hostReset (b : Bool) (s : State) : State := { s with host := { s.host with rst := b } }

/-- The input source will offer one more value (R121). -/
def hostOffer (v : Word) (s : State) : State := { s with host := { s.host with input := s.host.input ++ [v] } }

/-- The output sink drives `out_ready` (R123). -/
def hostSink (b : Bool) (s : State) : State := { s with host := { s.host with sinkReady := b } }

/-- How many requests the memory subsystem acknowledges in the next step of the model (R58, log 5). -/
def hostMemory (n : Nat) (s : State) : State := { s with host := { s.host with dmemAcks := n } }

end Sys2Proof.Machine
end

