-- ==== Sys2Proof/Safety.lean ====
section
/-! DEFINITION. The terms statements are written in: the invariant of the machine, what counts as an ended run, the core of a
state that execution depends on, and the cell an instruction writes. No step reads any of them. -/

namespace Sys2Proof.Machine

/-- A run has ended: Halted or Fatal (R29, R192). -/
abbrev State.Ended (s : State) : Prop := s.rs = .halted ∨ s.rs = .fatal

/-- How many of these addresses are requests on the data-memory interface: those of 1 or more (R57). -/
def requestCount (addresses : List Nat) : Nat := (addresses.filter fun a => decide (a ≠ 0)).length

/-- The first accesses of a step, to the cells at these addresses, complete: the memory has acknowledged as many requests of the
step, before this look at it or in it (R57, R58; log 5). -/
abbrev State.Answers (s : State) (addresses : List Nat) : Prop :=
  requestCount addresses ≤ s.acknowledged + s.host.dmemAcks

/-- The state a fault leaves, written out from R180: `RS`, `FC` and `FPC` and nothing else of R19; no wait held, no snapshot
(R196), no access committed (R102). -/
def State.afterFault (s : State) (kind : FatalKind) : State :=
  { s with rs := .fatal, fc := some kind, fpc := s.pc, wait := none, dbg := none, trace := [] }

/-- The state of a step that waits, written out from R32, R58 and R102: nothing of R19 has changed, and the step in progress is
held with the accesses it has completed. -/
def State.afterWait (s : State) (i : Instr) (reason : WaitReason) (done : List Access) : State :=
  { s with wait := some { instr := i, reason := reason, done := done }, dbg := none, trace := [] }

/-- The snapshot of R196 for an instruction executed at the pc of `s`: its two fields, the new `ACC`, and whether `0 ∈ DEF` after
it. -/
def State.snapshotAt (s : State) (opcode : OpcodeField) (operand acc : Word) (accDef : Bool) : Option Snapshot :=
  some { pc := s.pc.setWidth 63, opcode := opcode, operand := operand, acc := acc, accDef := accDef }

/-- `DEF` after accesses to these addresses, first to last (R33). -/
def definedAfter (accesses : List Nat) (d : List Nat) : List Nat := accesses.foldl (fun d a => AddrSet.insert a d) d

/-- The addresses of the cell accesses of a trace (R65). -/
def accessAddresses (t : List Access) : List Nat :=
  t.filterMap fun x =>
    match x with
    | .read a _ => some a
    | .write a _ => some a
    | .input _ => none
    | .output _ => none

/-- A trace access that writes a cell. -/
def Access.isWrite : Access → Bool
  | .write _ _ => true
  | .read _ _ => false
  | .input _ => false
  | .output _ => false

/-- The one cell an instruction writes when it completes, with the address its meaning computes; none for those that write no
cell (R65). -/
def writtenCell (i : Instr) (s : State) : Option Nat :=
  match i with
  | .get k => some k.toNat
  | .store k => some k.toNat
  | .storei k => some (s.cell k.toNat).toNat
  | .load _ | .loadi _ | .add _ | .sub _ | .addi _ | .subi _ | .set _ | .half _ => some 0
  | .put _ | .jump _ | .jpos _ | .jzero _ | .jneg _ | .rtrn _ | .halt _ => none

/-- What execution depends on: the run state, the pc, the memory with the accumulator, the step in progress, and what the host
drives. The counters, the fault record, `DEF`, `OUT`, the debug port and the trace are outside it (R26, R33, R195). -/
structure State.SameCore (s t : State) : Prop where
  rs : s.rs = t.rs
  pc : s.pc = t.pc
  acc : s.acc = t.acc
  mem : s.mem = t.mem
  wait : s.wait = t.wait
  host : s.host = t.host

/-- The invariant of the machine, true at reset and kept by every step. -/
structure State.Inv (s : State) : Prop where
  /-- The data memory is in canonical form, with addresses `1 .. 2^63−1` only (R55, R57). -/
  memory : Memory.wf s.mem = true
  /-- `DEF` is in ascending order, within `0 .. 2^63−1` (R33, R197). -/
  definedAscending : AddrSet.wf s.defined = true
  /-- A cell that does not read 0 has been accessed (R33, R51). -/
  nonzeroDefined : ∀ a, s.cell a ≠ 0 → a ∈ s.defined
  /-- The program fits its store (R9). -/
  programFits : s.host.program.length ≤ Config.progLenMax
  /-- The pc is one of the values of R22. -/
  pcLow : -2 ^ 63 ≤ s.pc.toInt
  /-- The pc is one of the values of R22. -/
  pcHigh : s.pc.toInt ≤ 2 ^ 64 - 2
  /-- `IC <= TC` (R27). -/
  ioWithinTotal : s.ic ≤ s.tc
  /-- `IC` is 100 times the number of completed `GET` and `PUT` steps (R124): a multiple of 100. -/
  ioHundreds : s.ic % 100 = 0
  /-- One output value per completed `PUT`, each charged 100 to `IC` (R32, R124). -/
  outputCharged : 100 * s.out.length ≤ s.ic
  /-- While `RS` is not Fatal, `FC` = 0 and `FPC` = 0 (R31). -/
  noFaultRecord : s.rs ≠ .fatal → s.fc = none ∧ s.fpc = 0
  /-- In Fatal the record holds a class and the unchanged pc of the step that faulted (R180). -/
  faultRecord : s.rs = .fatal → s.fc.isSome = true ∧ s.fpc = s.pc
  /-- A run that ended with InvalidProgramCounter has its pc out of range (R92, R182). -/
  invalidPc : s.fc = some .invalidProgramCounter → fetch s = none
  /-- A run that ended with another class has its pc at the faulting instruction (R181). -/
  faultAtInstr : s.fc = some .negativeAddress ∨ s.fc = some .unknownOpcode → (fetch s).isSome = true
  /-- A run that halted has its pc at the `HALT` word (R165). -/
  haltedAtHalt : s.rs = .halted → (fetch s).map opcodeField = some 0x11
  /-- After the end of a run no wait is held and no snapshot is on the port (R196, R199). -/
  endedQuiet : s.Ended → s.wait = none ∧ s.dbg = none
  /-- A pending data-memory request has an address in `1 .. 2^63−1`: address 0 never appears on `dmem_addr` (R57). -/
  pendingRead : ∀ w a, s.wait = some w → w.reason = .dataMemory (.read a) → 1 ≤ a ∧ a < Config.addrLimit
  /-- The same of a pending write (R57). -/
  pendingWrite : ∀ w a v, s.wait = some w → w.reason = .dataMemory (.write a v) → 1 ≤ a ∧ a < Config.addrLimit
  /-- The step in progress is that of the instruction at the pc (R58, R102). -/
  waitInstr : ∀ w, s.wait = some w → ∃ word, fetch s = some word ∧ decode word = .ok w.instr
  /-- What the step in progress has read is what the cells hold (R64, R102). -/
  waitReads : ∀ w a v, s.wait = some w → .read a v ∈ w.done → v = s.cell a
  /-- The step in progress has written no cell and handed over no output (R102). -/
  waitUncommitted : ∀ w, s.wait = some w → ∀ x ∈ w.done, x.isWrite = false ∧ ∀ v, x ≠ .output v
  /-- The memory has acknowledged at most one request of the step in progress: no instruction makes more than two (R65). -/
  waitRequests : s.acknowledged ≤ 1
  /-- A snapshot on the port shows the accumulator and whether it is defined (R196). -/
  snapshotTrue : ∀ d, s.dbg = some d → d.acc = s.acc ∧ d.accDef = decide (0 ∈ s.defined)

end Sys2Proof.Machine
end

