-- ==== Sys2Proof/WellFormed.lean ====
section
/-! DEFINITION. Static checks on instructions. Every term of `Instr` has an encoding and a meaning; these checks say which
instructions an assembler emits (R71, R80) and which pass the operand-sign check of R93 whatever the state. They are for
statements and tests: no step reads them. -/

namespace Sys2Proof

/-- The form an assembler emits: `HALF` and `HALT` carry operand 0 (R71, R80); every other instruction takes exactly one
operand in `−2^63 .. 2^63−1`, which is every `Word`. -/
def Instr.assemblerForm : Instr → Bool
  | .get _ | .put _ | .load _ | .store _ | .loadi _ | .storei _ | .add _ | .sub _ | .addi _ | .subi _ => true
  | .set _ | .jump _ | .jpos _ | .jzero _ | .jneg _ | .rtrn _ => true
  | .half k | .halt k => k == 0

/-- The operand passes the sign check of R93: every instruction but `SET`, the four relative jumps and `HALT` needs an
operand that is not negative. -/
def Instr.operandSignOk : Instr → Bool
  | .get k | .put k | .load k | .store k | .loadi k | .storei k | .add k | .sub k | .addi k | .subi k => decide (0 ≤ k.toInt)
  | .half k | .rtrn k => decide (0 ≤ k.toInt)
  | .set _ | .jump _ | .jpos _ | .jzero _ | .jneg _ | .halt _ => true

/-- An instruction that an assembler emits and that the operand-sign check lets through. -/
def Instr.wellFormed (i : Instr) : Bool := i.assemblerForm && i.operandSignOk

end Sys2Proof
end

