-- ==== Sys2Proof/Certificates/Slice0/Obligations.lean ====
section
/-! DEFINITION. The statements for the provers, from the numbered rules of spec/. Where a statement says that a state `t` is
`{ s with … }`, every field not named is unchanged: that is the statement's frame. `the cell answering` is `State.Answers`: the
memory has acknowledged the requests of the step, before this step of the model or in it (R58). How many requests it acknowledges
in one step of the model is a number the host drives, log 5. -/

open Sys2Proof Sys2Proof.Machine

/-- For every instruction i, with every 64-bit operand its encoding admits, decode (encode i) answers i: no bit of an
encoding is dropped. (R70, R71, R72, R74, R75.) -/
def Obligations.EncodeThenDecodeIsIdentity : Prop :=
    ∀ i : Instr, decode (encode i) = .ok i

/-- For every word w: if its opcode field is at most 0x11, decode answers an instruction with w's opcode number and
operand field whose encoding is w, and no other instruction has that encoding; if it is 0x12 to 0xFF, decode answers
unknown opcode. (R75.) -/
def Obligations.DecoderIsTotalAndExact : Prop :=
    ∀ w : InsnWord,
    ((opcodeField w).toNat ≤ 0x11 →
      ∃ i, decode w = .ok i ∧ i.opcode = opcodeField w ∧ i.operand = operandField w ∧ encode i = w ∧
        ∀ j, encode j = w → j = i) ∧
    (0x11 < (opcodeField w).toNat → decode w = .error (.unknownOpcode (opcodeField w) (operandField w)))

/-- For every word w: bit i of the opcode field is bit 64+i of w for i < 8, and bit i of the operand field is bit i of
w for i < 64; as numbers, w is opcode * 2^64 + operand. (R70.) -/
def Obligations.WordFieldsAreTheirBits : Prop :=
    ∀ w : InsnWord,
    (∀ i, i < 8 → (opcodeField w).getLsbD i = w.getLsbD (64 + i)) ∧
    (∀ i, i < 64 → (operandField w).getLsbD i = w.getLsbD i) ∧
    w.toNat = (opcodeField w).toNat * 2 ^ 64 + (operandField w).toNat

/-- For every operand k, the 18 instructions in the table's order have the opcode numbers 0x00 to 0x11, the mnemonics
and the operand kinds of R74; and two words with the same opcode field decode to instructions of the same opcode, or
both to unknown opcode. (R74.) -/
def Obligations.OpcodeMapIsTheTable : Prop :=
    (∀ k : Word,
      ([.get k, .put k, .load k, .store k, .loadi k, .storei k, .add k, .sub k,
        .addi k, .subi k, .set k, .half k, .jump k, .jpos k, .jzero k, .jneg k, .rtrn k, .halt k] : List Instr).map
          (fun i => (i.opcode, mnemonicOf i.opcode, i.operandKind)) =
      ([(0x00, some "GET", .address), (0x01, some "PUT", .address), (0x02, some "LOAD", .address),
        (0x03, some "STORE", .address), (0x04, some "LOADI", .addressIndirect), (0x05, some "STOREI", .addressIndirect),
        (0x06, some "ADD", .address), (0x07, some "SUB", .address), (0x08, some "ADDI", .addressIndirect),
        (0x09, some "SUBI", .addressIndirect), (0x0A, some "SET", .literal), (0x0B, some "HALF", .unusedSignChecked),
        (0x0C, some "JUMP", .relativeOffset), (0x0D, some "JPOS", .relativeOffset), (0x0E, some "JZERO", .relativeOffset),
        (0x0F, some "JNEG", .relativeOffset), (0x10, some "RTRN", .address), (0x11, some "HALT", .ignored)] :
        List (OpcodeField × Option String × OperandKind))) ∧
    (∀ w w' : InsnWord, opcodeField w = opcodeField w' →
      (∀ i, decode w = .ok i → ∃ i', decode w' = .ok i' ∧ i'.opcode = i.opcode) ∧
      (∀ op k, decode w = .error (.unknownOpcode op k) → ∃ k', decode w' = .error (.unknownOpcode op k')))

/-- Each of the twenty example words of R82 is the encoding of the instruction written beside it and decodes to it.
(R82.) -/
def Obligations.ExampleEncodings : Prop :=
    ∀ p ∈ ([(0x00_0000000000000001, .get 1), (0x01_0000000000000000, .put 0),
      (0x02_0000000000000007, .load 7), (0x02_FFFFFFFFFFFFFFFF, .load (-1)),
      (0x03_0000000000000001, .store 1), (0x04_0000000000000002, .loadi 2),
      (0x05_0000000000000002, .storei 2), (0x06_0000000000000001, .add 1),
      (0x07_0000000000000002, .sub 2), (0x08_0000000000000003, .addi 3),
      (0x09_0000000000000003, .subi 3), (0x0A_0000000000000003, .set 3),
      (0x0A_FFFFFFFFFFFFFFFB, .set (-5)), (0x0B_0000000000000000, .half 0),
      (0x0C_FFFFFFFFFFFFFFF8, .jump (-8)), (0x0D_0000000000000002, .jpos 2),
      (0x0E_0000000000000008, .jzero 8), (0x0F_0000000000000003, .jneg 3),
      (0x10_0000000000000009, .rtrn 9), (0x11_0000000000000000, .halt 0)] : List (InsnWord × Instr)),
    encode p.2 = p.1 ∧ decode p.1 = .ok p.2

/-- In a state not in reset, Running, whose program fits the store: if the pc is not negative, the word at the pc is w
and w decodes to i, then the step is exactly exec of i at that state. (R91, R92, R95.) -/
def Obligations.StepRunsTheDecodedInstruction : Prop :=
    ∀ (s : State) (w : InsnWord) (i : Instr),
    s.host.rst = false → s.rs = .running → s.host.program.length ≤ Config.progLenMax →
    0 ≤ s.pc.toInt → s.host.program[s.pc.toNat]? = some w → decode w = .ok i → step s = exec i s

/-- In a state not in reset that is Halted or Fatal, the step answers that very state: every state element holds its
value. (R29, R90, R199.) -/
def Obligations.HeldWhenNotRunning : Prop :=
    ∀ s : State, s.host.rst = false → s.Ended → step s = .next s

/-- In a Running state: if pc < 0 or pc >= PROG_LEN, the step only takes Fatal(InvalidProgramCounter) with FPC = pc;
otherwise there is a word w = P[pc] and the step is that of w. (R92.) -/
def Obligations.FetchRangeCheck : Prop :=
    ∀ s : State, s.host.rst = false → s.rs = .running → s.host.program.length ≤ Config.progLenMax →
    (s.pc.toInt < 0 ∨ (s.host.program.length : Int) ≤ s.pc.toInt →
      step s = .next (s.afterFault .invalidProgramCounter)) ∧
    (0 ≤ s.pc.toInt → s.pc.toInt < (s.host.program.length : Int) →
      ∃ w, s.host.program[s.pc.toInt.toNat]? = some w ∧ step s = runWord w s)

/-- In a Running state with word w at the pc: the operand is negative exactly when bit 63 of w is 1; if it is negative
and the opcode is none of 0x0A, 0x0C to 0x0F and 0x11 (so HALF and every unknown opcode are covered), the step only
takes Fatal(NegativeAddress) with FPC = pc; for 0x0A and 0x0C to 0x0F, whatever the operand, the step completes
(Running, no wait, TC larger) with the fault record unchanged; for 0x11, whatever the operand, it halts with the fault
record unchanged. (R93.) -/
def Obligations.OperandSignCheck : Prop :=
    ∀ (s : State) (w : InsnWord),
    s.host.rst = false → s.rs = .running → s.host.program.length ≤ Config.progLenMax →
    0 ≤ s.pc.toInt → s.host.program[s.pc.toNat]? = some w →
    ((operandField w).toInt < 0 ↔ w.getLsbD 63 = true) ∧
    ((operandField w).toInt < 0 → opcodeField w ∉ ([0x0A, 0x0C, 0x0D, 0x0E, 0x0F, 0x11] : List OpcodeField) →
      step s = .next (s.afterFault .negativeAddress)) ∧
    (opcodeField w ∈ ([0x0A, 0x0C, 0x0D, 0x0E, 0x0F] : List OpcodeField) →
      ∃ t, step s = .next t ∧ t.rs = .running ∧ t.wait = none ∧ s.tc < t.tc ∧ t.fc = s.fc ∧ t.fpc = s.fpc) ∧
    (opcodeField w = 0x11 → ∃ t, step s = .next t ∧ t.rs = .halted ∧ t.fc = s.fc ∧ t.fpc = s.fpc)

/-- For LOADI, STOREI, ADDI and SUBI with operand k >= 0 whose pointer cell M[k] answers: if M[k] < 0 the instruction
only takes Fatal(NegativeAddress) with FPC = pc, so no cell is written, the pc stays and nothing is charged. (R94,
R102, R183.) -/
def Obligations.EffectiveAddressCheck : Prop :=
    ∀ (s : State) (k : Word) (i : Instr), i ∈ ([.loadi k, .storei k, .addi k, .subi k] : List Instr) →
    0 ≤ k.toInt → s.Answers [k.toNat] → (s.cell k.toNat).toInt < 0 →
    exec i s = .next (s.afterFault .negativeAddress)

/-- In a Running state whose word at the pc has an opcode field of 0x12 to 0xFF: with an operand >= 0 the step only
takes Fatal(UnknownOpcode), with a negative operand it only takes Fatal(NegativeAddress); FPC = pc in both. (R76.) -/
def Obligations.UnknownOpcodeFault : Prop :=
    ∀ (s : State) (w : InsnWord),
    s.host.rst = false → s.rs = .running → s.host.program.length ≤ Config.progLenMax →
    0 ≤ s.pc.toInt → s.host.program[s.pc.toNat]? = some w → 0x12 ≤ (opcodeField w).toNat →
    (0 ≤ (operandField w).toInt → step s = .next (s.afterFault .unknownOpcode)) ∧
    ((operandField w).toInt < 0 → step s = .next (s.afterFault .negativeAddress))

/-- For every Running state not in reset: if the step answers a Fatal state t, then for one of the three classes t is
the old state with RS = Fatal, FC = that class and FPC = the old pc, with no wait held, no snapshot and no access
committed; memory, pc, TC, IC, DEF, OUT and the host's side are as before; and fault_class then shows 1, 2 or 3 for
InvalidProgramCounter, NegativeAddress, UnknownOpcode. (R180.) -/
def Obligations.TakingAFaultChangesOnlyTheRecord : Prop :=
    ∀ s t : State, s.host.rst = false → s.rs = .running → step s = .next t → t.rs = .fatal →
    ∃ kind,
      t = { s with rs := .fatal, fc := some kind, fpc := s.pc, wait := none, dbg := none, trace := [] } ∧
      t = s.afterFault kind ∧
      faultClassPort t = (match kind with
        | .invalidProgramCounter => 1
        | .negativeAddress => 2
        | .unknownOpcode => 3)

/-- In a Running state: if the pc is out of range the step reports InvalidProgramCounter; else, with w the word at the
pc, opcode 0x11 halts whatever its operand; else a negative operand of an opcode other than SET and the relative jumps
reports NegativeAddress; else an opcode above 0x11 reports UnknownOpcode; else an indirect instruction whose pointer
cell answers and is negative reports NegativeAddress; else the step stays Running with the fault record unchanged.
(R186.) -/
def Obligations.PriorityOfChecks : Prop :=
    ∀ s : State, s.host.rst = false → s.rs = .running → s.host.program.length ≤ Config.progLenMax →
    ∃ t, step s = .next t ∧
      (match fetch s with
        | none => (s.pc.toInt < 0 ∨ (s.host.program.length : Int) ≤ s.pc.toInt) ∧
            t.rs = .fatal ∧ t.fc = some .invalidProgramCounter
        | some w =>
          0 ≤ s.pc.toInt ∧ s.host.program[s.pc.toNat]? = some w ∧
          if opcodeField w = 0x11 then t.rs = .halted ∧ t.fc = s.fc
          else if opcodeField w ∉ ([0x0A, 0x0C, 0x0D, 0x0E, 0x0F] : List OpcodeField) ∧ (operandField w).toInt < 0 then
            t.rs = .fatal ∧ t.fc = some .negativeAddress
          else if 0x11 < (opcodeField w).toNat then t.rs = .fatal ∧ t.fc = some .unknownOpcode
          else if opcodeField w ∈ ([0x04, 0x05, 0x08, 0x09] : List OpcodeField) ∧
              s.Answers [(operandField w).toNat] ∧ (s.cell (operandField w).toNat).toInt < 0 then
            t.rs = .fatal ∧ t.fc = some .negativeAddress
          else t.rs = .running ∧ t.fc = s.fc ∧ t.fpc = s.fpc)

/-- In State.reset: RS = Running, pc = 0, TC = IC = 0, every cell reads 0 (the accumulator among them), DEF is empty,
FC = none (code 0), FPC = 0, OUT is empty, the I/O wait is not held (no step is in progress) and dbg_valid is 0.
(R37.) -/
def Obligations.ResetValues : Prop :=
    ∀ t : State, t = State.reset →
      t.rs = .running ∧ t.pc = 0 ∧ t.tc = 0 ∧ t.ic = 0 ∧ (∀ a, t.cell a = 0) ∧ t.defined = [] ∧ t.fc = none ∧
      t.fpc = 0 ∧ t.out = [] ∧ t.ioWait = false ∧ t.wait = none ∧ dbgValidPort t = false ∧ faultClassPort t = 0 ∧ runStatePort t = 0

/-- From every state with rst = 1, in any run state, ended or waiting on a channel or on the data memory: no port
presents a request, before the step and after it; and the step answers a state with every value of R37, with no step
in progress and the host's side unchanged. From a Halted or Fatal state a step that answers a Running state has rst =
1. That the data cells of 1 and up read 0 already while rst is still 1 is the model's reading, log 9: R213 leaves them
to the host until rst returns to 0. (R210, R211.) -/
def Obligations.ResetAtAnyTime : Prop :=
    (∀ s : State, s.host.rst = true →
      inReadyPort s = false ∧ outOfferedPort s = none ∧ dmemPendingPort s = none ∧ imemAddrPort s = none ∧
      ∃ t, step s = .next t ∧ t.host = s.host ∧
      t.rs = .running ∧ t.pc = 0 ∧ t.tc = 0 ∧ t.ic = 0 ∧ (∀ a, t.cell a = 0) ∧ t.defined = [] ∧ t.fc = none ∧
      t.fpc = 0 ∧ t.out = [] ∧ t.ioWait = false ∧ t.wait = none ∧ dbgValidPort t = false ∧
      inReadyPort t = false ∧ outOfferedPort t = none ∧ dmemPendingPort t = none ∧ imemAddrPort t = none) ∧
    (∀ s t : State, s.Ended → step s = .next t → t.rs = .running → s.host.rst = true)

/-- State.reset satisfies State.Inv. Two of its clauses (the program fits, no program is loaded) rest on the model's
choice of an empty program store at reset, log 2. (R37, R210.) -/
def Obligations.ResetSatisfiesTheInvariant : Prop :=
    State.reset.Inv

/-- For every state s with State.Inv s, reachable or not: if the step answers next t, then State.Inv t. The invariant:
the data memory is canonical with addresses 1 to 2^63-1; DEF ascends inside the address space and holds every cell
that does not read 0; the pc lies in -2^63 .. 2^64-2; IC <= TC, IC is a multiple of 100 and at least 100 per output
value; FC and FPC are 0 unless Fatal, and in Fatal hold a class and the unchanged pc; an InvalidProgramCounter end has
its pc out of range, any other end has it at an instruction, a halted one at a HALT word; an ended run holds no wait
and shows no snapshot; a pending memory request has an address in 1 .. 2^63-1; a step in progress is that of the
instruction at the pc, has read what the cells hold, has written no cell and handed over no output, and has had at
most one memory request acknowledged; a snapshot shows the accumulator. That a program is at most 2^63 words long is
log 10; that a step in progress is held with the accesses it has completed is log 5. (R22, R27, R31, R33, R57, R58,
R65, R102, R124, R165, R180, R196.) -/
def Obligations.StepKeepsTheInvariant : Prop :=
    ∀ s t : State, s.Inv → step s = .next t → t.Inv

/-- GET k, opcode 0x00: with k >= 0, a value v that the source offers, or that this step has taken while its memory
write waited (log 13), and the cell answering, it completes: M[k] = v (ACC when k = 0), v is consumed once, pc + 1, TC
+ 100, IC + 100, k enters DEF, nothing else changes but the snapshot port (log 6), the wait and the trace (the model's
own, log 8). With no value offered or taken it waits with nothing changed. With k < 0 it only takes
Fatal(NegativeAddress), before any input is consumed. (R120.) -/
def Obligations.GetWritesTheInputValue : Prop :=
    ∀ (s : State) (k : Word),
    decode (0x00#8 ++ k) = .ok (.get k) ∧
    (∀ v rest, 0 ≤ k.toInt →
      ((s.takenInput = some v ∧ s.host.input = rest) ∨ (s.takenInput = none ∧ s.host.input = v :: rest)) →
      s.Answers [k.toNat] →
      exec (.get k) s = .next
        { s.setCell k.toNat v with
          pc := s.pc + 1,
          host := { s.host with input := rest },
          tc := s.tc + 100, ic := s.ic + 100, wait := none,
          defined := definedAfter [k.toNat] s.defined,
          dbg := s.snapshotAt 0x00 k (s.setCell k.toNat v).acc (decide (0 ∈ definedAfter [k.toNat] s.defined)),
          trace := [.input v, .write k.toNat v] }) ∧
    (0 ≤ k.toInt → s.takenInput = none → s.host.input = [] → exec (.get k) s = .next (s.afterWait (.get k) .input [])) ∧
    (k.toInt < 0 → exec (.get k) s = .next (s.afterFault .negativeAddress))

/-- PUT k, opcode 0x01: with k >= 0, the cell answering and the sink ready, it completes: OUT gains M[k] (0 for a cell
never written), pc + 1, TC + 100, IC + 100, k enters DEF, no cell changes, nothing else changes but the snapshot port
(log 6), the wait and the trace (the model's own, log 8). With the sink not ready it waits, presenting M[k], with its
read done (log 5) and nothing changed. With k < 0 it only takes Fatal(NegativeAddress). (R122.) -/
def Obligations.PutHandsOverTheCell : Prop :=
    ∀ (s : State) (k : Word),
    decode (0x01#8 ++ k) = .ok (.put k) ∧
    (0 ≤ k.toInt → s.Answers [k.toNat] → s.host.sinkReady = true →
      exec (.put k) s = .next
        { s with
          pc := s.pc + 1,
          out := s.out ++ [s.cell k.toNat],
          tc := s.tc + 100, ic := s.ic + 100, wait := none,
          defined := definedAfter [k.toNat] s.defined,
          dbg := s.snapshotAt 0x01 k s.acc (decide (0 ∈ definedAfter [k.toNat] s.defined)),
          trace := [.read k.toNat (s.cell k.toNat), .output (s.cell k.toNat)] }) ∧
    (0 ≤ k.toInt → s.Answers [k.toNat] → s.host.sinkReady = false →
      exec (.put k) s = .next (s.afterWait (.put k) (.output (s.cell k.toNat)) [.read k.toNat (s.cell k.toNat)])) ∧
    (k.toInt < 0 → exec (.put k) s = .next (s.afterFault .negativeAddress))

/-- LOAD k, opcode 0x02: with k >= 0 and the cell answering, it completes: ACC = M[k], pc + 1, TC + 10, k and 0 enter
DEF, nothing else changes but the snapshot port (log 6), the wait and the trace (the model's own, log 8). With k < 0
it only takes Fatal(NegativeAddress). (R130.) -/
def Obligations.LoadCopiesTheCellToAcc : Prop :=
    ∀ (s : State) (k : Word),
    decode (0x02#8 ++ k) = .ok (.load k) ∧
    (0 ≤ k.toInt → s.Answers [k.toNat] →
      exec (.load k) s = .next
        { s with
          pc := s.pc + 1,
          acc := s.cell k.toNat,
          tc := s.tc + 10, wait := none,
          defined := definedAfter [k.toNat, 0] s.defined,
          dbg := s.snapshotAt 0x02 k (s.cell k.toNat) true,
          trace := [.read k.toNat (s.cell k.toNat), .write 0 (s.cell k.toNat)] }) ∧
    (k.toInt < 0 → exec (.load k) s = .next (s.afterFault .negativeAddress))

/-- STORE k, opcode 0x03: with k >= 0 and the cell answering, it completes: M[k] = ACC, pc + 1, TC + 10, 0 and k enter
DEF, ACC and everything else but the snapshot port (log 6), the wait and the trace (the model's own, log 8) unchanged.
With k < 0 it only takes Fatal(NegativeAddress). (R131.) -/
def Obligations.StoreCopiesAccToTheCell : Prop :=
    ∀ (s : State) (k : Word),
    decode (0x03#8 ++ k) = .ok (.store k) ∧
    (0 ≤ k.toInt → s.Answers [k.toNat] →
      exec (.store k) s = .next
        { s.setCell k.toNat s.acc with
          pc := s.pc + 1,
          acc := s.acc,
          tc := s.tc + 10, wait := none,
          defined := definedAfter [0, k.toNat] s.defined,
          dbg := s.snapshotAt 0x03 k s.acc true,
          trace := [.read 0 s.acc, .write k.toNat s.acc] }) ∧
    (k.toInt < 0 → exec (.store k) s = .next (s.afterFault .negativeAddress))

/-- LOADI k, opcode 0x04: with k >= 0, e = M[k] >= 0 and both cells answering, it completes: ACC = M[e], pc + 1, TC +
20, k, e and 0 enter DEF, nothing else changes but the snapshot port (log 6), the wait and the trace (the model's own,
log 8). With M[k] < 0, or with k < 0, it only takes Fatal(NegativeAddress). (R132.) -/
def Obligations.LoadiReadsThroughThePointer : Prop :=
    ∀ (s : State) (k : Word),
    decode (0x04#8 ++ k) = .ok (.loadi k) ∧
    (0 ≤ k.toInt → 0 ≤ (s.cell k.toNat).toInt → s.Answers [k.toNat, (s.cell k.toNat).toNat] →
      exec (.loadi k) s = .next
        { s with
          pc := s.pc + 1,
          acc := s.cell (s.cell k.toNat).toNat,
          tc := s.tc + 20, wait := none,
          defined := definedAfter [k.toNat, (s.cell k.toNat).toNat, 0] s.defined,
          dbg := s.snapshotAt 0x04 k (s.cell (s.cell k.toNat).toNat) true,
          trace := [.read k.toNat (s.cell k.toNat), .read (s.cell k.toNat).toNat (s.cell (s.cell k.toNat).toNat),
            .write 0 (s.cell (s.cell k.toNat).toNat)] }) ∧
    (0 ≤ k.toInt → s.Answers [k.toNat] → (s.cell k.toNat).toInt < 0 →
      exec (.loadi k) s = .next (s.afterFault .negativeAddress)) ∧
    (k.toInt < 0 → exec (.loadi k) s = .next (s.afterFault .negativeAddress))

/-- STOREI k, opcode 0x05: with k >= 0, e = M[k] >= 0 and both cells answering, it completes: M[e] = ACC, pc + 1, TC +
20, k, 0 and e enter DEF, ACC and everything else but the snapshot port (log 6), the wait and the trace (the model's
own, log 8) unchanged. With M[k] < 0, or with k < 0, it only takes Fatal(NegativeAddress). (R133.) -/
def Obligations.StoreiWritesThroughThePointer : Prop :=
    ∀ (s : State) (k : Word),
    decode (0x05#8 ++ k) = .ok (.storei k) ∧
    (0 ≤ k.toInt → 0 ≤ (s.cell k.toNat).toInt → s.Answers [k.toNat, (s.cell k.toNat).toNat] →
      exec (.storei k) s = .next
        { s.setCell (s.cell k.toNat).toNat s.acc with
          pc := s.pc + 1,
          acc := s.acc,
          tc := s.tc + 20, wait := none,
          defined := definedAfter [k.toNat, 0, (s.cell k.toNat).toNat] s.defined,
          dbg := s.snapshotAt 0x05 k s.acc true,
          trace := [.read k.toNat (s.cell k.toNat), .read 0 s.acc, .write (s.cell k.toNat).toNat s.acc] }) ∧
    (0 ≤ k.toInt → s.Answers [k.toNat] → (s.cell k.toNat).toInt < 0 →
      exec (.storei k) s = .next (s.afterFault .negativeAddress)) ∧
    (k.toInt < 0 → exec (.storei k) s = .next (s.afterFault .negativeAddress))

/-- ADD k, opcode 0x06: with k >= 0 and the cell answering, it completes: ACC = the low 64 bits of the exact sum of
ACC and M[k] (overflow raises nothing), pc + 1, TC + 10, the addresses read and 0 enter DEF, nothing else changes but
the snapshot port (log 6), the wait and the trace (the model's own, log 8). With k < 0 it only takes
Fatal(NegativeAddress). (R141.) -/
def Obligations.AddLeavesTheWrappedSum : Prop :=
    ∀ (s : State) (k : Word),
    decode (0x06#8 ++ k) = .ok (.add k) ∧
    (0 ≤ k.toInt → s.Answers [k.toNat] →
      exec (.add k) s = .next
        { s with
          pc := s.pc + 1,
          acc := BitVec.ofInt 64 (s.acc.toInt + (s.cell k.toNat).toInt),
          tc := s.tc + 10, wait := none,
          defined := definedAfter [0, k.toNat, 0] s.defined,
          dbg := s.snapshotAt 0x06 k (BitVec.ofInt 64 (s.acc.toInt + (s.cell k.toNat).toInt)) true,
          trace := [.read 0 s.acc, .read k.toNat (s.cell k.toNat),
            .write 0 (BitVec.ofInt 64 (s.acc.toInt + (s.cell k.toNat).toInt))] }) ∧
    (k.toInt < 0 → exec (.add k) s = .next (s.afterFault .negativeAddress))

/-- SUB k, opcode 0x07: with k >= 0 and the cell answering, it completes: ACC = the low 64 bits of the exact
difference of ACC and M[k] (overflow raises nothing), pc + 1, TC + 10, the addresses read and 0 enter DEF, nothing
else changes but the snapshot port (log 6), the wait and the trace (the model's own, log 8). With k < 0 it only takes
Fatal(NegativeAddress). (R142.) -/
def Obligations.SubLeavesTheWrappedDifference : Prop :=
    ∀ (s : State) (k : Word),
    decode (0x07#8 ++ k) = .ok (.sub k) ∧
    (0 ≤ k.toInt → s.Answers [k.toNat] →
      exec (.sub k) s = .next
        { s with
          pc := s.pc + 1,
          acc := BitVec.ofInt 64 (s.acc.toInt - (s.cell k.toNat).toInt),
          tc := s.tc + 10, wait := none,
          defined := definedAfter [0, k.toNat, 0] s.defined,
          dbg := s.snapshotAt 0x07 k (BitVec.ofInt 64 (s.acc.toInt - (s.cell k.toNat).toInt)) true,
          trace := [.read 0 s.acc, .read k.toNat (s.cell k.toNat),
            .write 0 (BitVec.ofInt 64 (s.acc.toInt - (s.cell k.toNat).toInt))] }) ∧
    (k.toInt < 0 → exec (.sub k) s = .next (s.afterFault .negativeAddress))

/-- ADDI k, opcode 0x08: with k >= 0, e = M[k] >= 0 and both cells answering, it completes: ACC = the low 64 bits of
the exact sum of ACC and M[M[k]] (overflow raises nothing), pc + 1, TC + 20, the addresses read and 0 enter DEF,
nothing else changes but the snapshot port (log 6), the wait and the trace (the model's own, log 8). With M[k] < 0, or
with k < 0, it only takes Fatal(NegativeAddress). (R143.) -/
def Obligations.AddiLeavesTheWrappedSum : Prop :=
    ∀ (s : State) (k : Word),
    decode (0x08#8 ++ k) = .ok (.addi k) ∧
    (0 ≤ k.toInt → 0 ≤ (s.cell k.toNat).toInt → s.Answers [k.toNat, (s.cell k.toNat).toNat] →
      exec (.addi k) s = .next
        { s with
          pc := s.pc + 1,
          acc := BitVec.ofInt 64 (s.acc.toInt + (s.cell (s.cell k.toNat).toNat).toInt),
          tc := s.tc + 20, wait := none,
          defined := definedAfter [k.toNat, (s.cell k.toNat).toNat, 0, 0] s.defined,
          dbg := s.snapshotAt 0x08 k (BitVec.ofInt 64 (s.acc.toInt + (s.cell (s.cell k.toNat).toNat).toInt)) true,
          trace := [.read k.toNat (s.cell k.toNat), .read (s.cell k.toNat).toNat (s.cell (s.cell k.toNat).toNat),
            .read 0 s.acc, .write 0 (BitVec.ofInt 64 (s.acc.toInt + (s.cell (s.cell k.toNat).toNat).toInt))] }) ∧
    (0 ≤ k.toInt → s.Answers [k.toNat] → (s.cell k.toNat).toInt < 0 →
      exec (.addi k) s = .next (s.afterFault .negativeAddress)) ∧
    (k.toInt < 0 → exec (.addi k) s = .next (s.afterFault .negativeAddress))

/-- SUBI k, opcode 0x09: with k >= 0, e = M[k] >= 0 and both cells answering, it completes: ACC = the low 64 bits of
the exact difference of ACC and M[M[k]] (overflow raises nothing), pc + 1, TC + 12, the addresses read and 0 enter
DEF, nothing else changes but the snapshot port (log 6), the wait and the trace (the model's own, log 8). With M[k] <
0, or with k < 0, it only takes Fatal(NegativeAddress). (R144.) -/
def Obligations.SubiLeavesTheWrappedDifference : Prop :=
    ∀ (s : State) (k : Word),
    decode (0x09#8 ++ k) = .ok (.subi k) ∧
    (0 ≤ k.toInt → 0 ≤ (s.cell k.toNat).toInt → s.Answers [k.toNat, (s.cell k.toNat).toNat] →
      exec (.subi k) s = .next
        { s with
          pc := s.pc + 1,
          acc := BitVec.ofInt 64 (s.acc.toInt - (s.cell (s.cell k.toNat).toNat).toInt),
          tc := s.tc + 12, wait := none,
          defined := definedAfter [k.toNat, (s.cell k.toNat).toNat, 0, 0] s.defined,
          dbg := s.snapshotAt 0x09 k (BitVec.ofInt 64 (s.acc.toInt - (s.cell (s.cell k.toNat).toNat).toInt)) true,
          trace := [.read k.toNat (s.cell k.toNat), .read (s.cell k.toNat).toNat (s.cell (s.cell k.toNat).toNat),
            .read 0 s.acc, .write 0 (BitVec.ofInt 64 (s.acc.toInt - (s.cell (s.cell k.toNat).toNat).toInt))] }) ∧
    (0 ≤ k.toInt → s.Answers [k.toNat] → (s.cell k.toNat).toInt < 0 →
      exec (.subi k) s = .next (s.afterFault .negativeAddress)) ∧
    (k.toInt < 0 → exec (.subi k) s = .next (s.afterFault .negativeAddress))

/-- SET k, opcode 0x0A, for every k, negative or not: it completes: ACC = k, pc + 1, TC + 50, 0 enters DEF, no cell is
read, nothing else changes but the snapshot port (log 6), the wait and the trace (the model's own, log 8); it raises
nothing. (R145.) -/
def Obligations.SetCopiesTheLiteral : Prop :=
    ∀ (s : State) (k : Word),
    decode (0x0A#8 ++ k) = .ok (.set k) ∧
    exec (.set k) s = .next
        { s with
          pc := s.pc + 1,
          acc := k,
          tc := s.tc + 50, wait := none,
          defined := definedAfter [0] s.defined,
          dbg := s.snapshotAt 0x0A k k true,
          trace := [.write 0 k] }

/-- HALF, opcode 0x0B, with any operand field >= 0: it completes: ACC = floor(ACC / 2) (integer division rounding
down), pc + 1, TC + 5, 0 enters DEF, nothing else changes but the snapshot port (log 6), the wait and the trace (the
model's own, log 8). With a negative operand field it only takes Fatal(NegativeAddress). (R146.) -/
def Obligations.HalfIsFloorDivisionByTwo : Prop :=
    ∀ (s : State) (k : Word),
    decode (0x0B#8 ++ k) = .ok (.half k) ∧
    (0 ≤ k.toInt →
      exec (.half k) s = .next
        { s with
          pc := s.pc + 1,
          acc := BitVec.ofInt 64 (s.acc.toInt / 2),
          tc := s.tc + 5, wait := none,
          defined := definedAfter [0, 0] s.defined,
          dbg := s.snapshotAt 0x0B k (BitVec.ofInt 64 (s.acc.toInt / 2)) true,
          trace := [.read 0 s.acc, .write 0 (BitVec.ofInt 64 (s.acc.toInt / 2))] }) ∧
    (k.toInt < 0 → exec (.half k) s = .next (s.afterFault .negativeAddress))

/-- JUMP k, opcode 0x0C, for every k: it completes: pc = pc + k (k sign-extended to the 65 bits of the pc), TC + 1,
nothing else changes but the snapshot port (log 6), the wait and the trace (the model's own, log 8); it raises nothing
in this step. That the 65-bit sum is the exact integer pc + k for a pc in range is NextPcIsExact. (R160.) -/
def Obligations.JumpAddsTheOffset : Prop :=
    ∀ (s : State) (k : Word),
    decode (0x0C#8 ++ k) = .ok (.jump k) ∧
    exec (.jump k) s = .next
        { s with
          pc := s.pc + k.signExtend 65,
          tc := s.tc + 1, wait := none,
          dbg := s.snapshotAt 0x0C k s.acc (decide (0 ∈ s.defined)),
          trace := [] }

/-- JPOS k, opcode 0x0D, for every k: it completes: pc = pc + k when ACC > 0, else pc + 1; TC + 1 either way, 0 enters
DEF, nothing else changes but the snapshot port (log 6), the wait and the trace (the model's own, log 8); it raises
nothing in this step. (R161.) -/
def Obligations.JposJumpsWhenPositive : Prop :=
    ∀ (s : State) (k : Word),
    decode (0x0D#8 ++ k) = .ok (.jpos k) ∧
    exec (.jpos k) s = .next
        { s with
          pc := if 0 < s.acc.toInt then s.pc + k.signExtend 65 else s.pc + 1,
          tc := s.tc + 1, wait := none,
          defined := definedAfter [0] s.defined,
          dbg := s.snapshotAt 0x0D k s.acc true,
          trace := [.read 0 s.acc] }

/-- JZERO k, opcode 0x0E, for every k: it completes: pc = pc + k when ACC = 0, else pc + 1; TC + 1 either way, 0
enters DEF, nothing else changes but the snapshot port (log 6), the wait and the trace (the model's own, log 8); it
raises nothing in this step. (R162.) -/
def Obligations.JzeroJumpsWhenZero : Prop :=
    ∀ (s : State) (k : Word),
    decode (0x0E#8 ++ k) = .ok (.jzero k) ∧
    exec (.jzero k) s = .next
        { s with
          pc := if s.acc = 0 then s.pc + k.signExtend 65 else s.pc + 1,
          tc := s.tc + 1, wait := none,
          defined := definedAfter [0] s.defined,
          dbg := s.snapshotAt 0x0E k s.acc true,
          trace := [.read 0 s.acc] }

/-- JNEG k, opcode 0x0F, for every k: it completes: pc = pc + k when ACC < 0, else pc + 1; TC + 1 either way, 0 enters
DEF, nothing else changes but the snapshot port (log 6), the wait and the trace (the model's own, log 8); it raises
nothing in this step. (R163.) -/
def Obligations.JnegJumpsWhenNegative : Prop :=
    ∀ (s : State) (k : Word),
    decode (0x0F#8 ++ k) = .ok (.jneg k) ∧
    exec (.jneg k) s = .next
        { s with
          pc := if s.acc.toInt < 0 then s.pc + k.signExtend 65 else s.pc + 1,
          tc := s.tc + 1, wait := none,
          defined := definedAfter [0] s.defined,
          dbg := s.snapshotAt 0x0F k s.acc true,
          trace := [.read 0 s.acc] }

/-- RTRN k, opcode 0x10: with k >= 0 and the cell answering, it completes: pc = M[k] (sign-extended, negative
included, not checked here), TC + 10, k enters DEF, no cell changes, nothing else changes but the snapshot port (log
6), the wait and the trace (the model's own, log 8). With k < 0 it only takes Fatal(NegativeAddress). (R164.) -/
def Obligations.RtrnJumpsToTheCell : Prop :=
    ∀ (s : State) (k : Word),
    decode (0x10#8 ++ k) = .ok (.rtrn k) ∧
    (0 ≤ k.toInt → s.Answers [k.toNat] →
      exec (.rtrn k) s = .next
        { s with
          pc := (s.cell k.toNat).signExtend 65,
          tc := s.tc + 10, wait := none,
          defined := definedAfter [k.toNat] s.defined,
          dbg := s.snapshotAt 0x10 k s.acc (decide (0 ∈ definedAfter [k.toNat] s.defined)),
          trace := [.read k.toNat (s.cell k.toNat)] }) ∧
    (k.toInt < 0 → exec (.rtrn k) s = .next (s.afterFault .negativeAddress))

/-- HALT, opcode 0x11, for every operand field: it only sets RS = Halted (no wait, no snapshot, no access), so pc, TC,
IC and every cell are unchanged and nothing is raised; and from the state it leaves, no step changes anything while
rst is 0. (R165.) -/
def Obligations.HaltEndsTheRun : Prop :=
    ∀ (s : State) (k : Word),
    decode (0x11#8 ++ k) = .ok (.halt k) ∧
    exec (.halt k) s = .next { s with rs := .halted, wait := none, dbg := none, trace := [] } ∧
    (∀ t, exec (.halt k) s = .next t → s.host.rst = false → step t = .next t)

/-- Let n be how many requests of the step the memory has acknowledged, before this step of the model and in it. With
n = 0: PUT, LOAD, RTRN, LOADI, STOREI, ADDI, SUBI, ADD and SUB with k >= 1 wait on the read of k; STORE with k >= 1
waits on the write of ACC to k; GET with k >= 1 and a value v offered or taken waits on the write of v to k, with v
taken from the source; LOADI, ADDI and SUBI with k = 0 and ACC >= 1 wait on the read of address ACC, STOREI so on the
write of ACC to address ACC. With n = 1, k >= 1 and e = M[k] >= 1: LOADI, ADDI and SUBI wait on the read of e and
STOREI on the write of ACC to e, with the read of k done. In each case nothing else changes but the snapshot port (log
6) and the trace (log 8). Which request is pending follows from how many requests the memory acknowledges in one step
of the model: that this is a number the host drives is the model's choice, log 5; that a GET waiting on its write has
taken its value is the model's reading, log 13. (R58, R65, R102, R103.) -/
def Obligations.UnacknowledgedMemoryWaits : Prop :=
    ∀ (s : State) (k : Word),
    (s.acknowledged + s.host.dmemAcks = 0 →
      (0 < k.toInt → ∀ i ∈ ([.put k, .load k, .rtrn k, .loadi k, .storei k, .addi k, .subi k] : List Instr),
        exec i s = .next (s.afterWait i (.dataMemory (.read k.toNat)) [])) ∧
      (0 < k.toInt → ∀ i ∈ ([.add k, .sub k] : List Instr),
        exec i s = .next (s.afterWait i (.dataMemory (.read k.toNat)) [.read 0 s.acc])) ∧
      (0 < k.toInt → exec (.store k) s = .next (s.afterWait (.store k) (.dataMemory (.write k.toNat s.acc)) [.read 0 s.acc])) ∧
      (∀ v rest, 0 < k.toInt →
        ((s.takenInput = some v ∧ s.host.input = rest) ∨ (s.takenInput = none ∧ s.host.input = v :: rest)) →
        exec (.get k) s = .next { s with
          host := { s.host with input := rest },
          wait := some { instr := .get k, reason := .dataMemory (.write k.toNat v), done := [.input v] },
          dbg := none, trace := [] }) ∧
      (0 < s.acc.toInt → ∀ i ∈ ([.loadi 0, .addi 0, .subi 0] : List Instr),
        exec i s = .next (s.afterWait i (.dataMemory (.read s.acc.toNat)) [.read 0 s.acc])) ∧
      (0 < s.acc.toInt →
        exec (.storei 0) s = .next (s.afterWait (.storei 0) (.dataMemory (.write s.acc.toNat s.acc)) [.read 0 s.acc, .read 0 s.acc]))) ∧
    (s.acknowledged + s.host.dmemAcks = 1 → 0 < k.toInt → 0 < (s.cell k.toNat).toInt →
      (∀ i ∈ ([.loadi k, .addi k, .subi k] : List Instr),
        exec i s = .next (s.afterWait i (.dataMemory (.read (s.cell k.toNat).toNat)) [.read k.toNat (s.cell k.toNat)])) ∧
      exec (.storei k) s = .next (s.afterWait (.storei k) (.dataMemory (.write (s.cell k.toNat).toNat s.acc)) [.read k.toNat (s.cell k.toNat), .read 0 s.acc]))

/-- For every Running state not in reset: if the step answers a state t that holds a wait r, then r is that of the
instruction i at the pc, and t is the old state but for r, the snapshot port, the trace and, when i is GET and has
just taken its value, that value gone from the input; the I/O wait holds exactly when i is PUT, or GET with no value
taken; if r is for a memory request, the requests of the step acknowledged so far are those acknowledged before and
all that the memory acknowledged now; and the step from t answers t again when r is for a channel or the memory
acknowledges nothing. That a step of the model looks at a wait again is log 12; that the memory's acknowledgements are
a number per step of the model is log 5; that a GET waiting on its write has taken its value is log 13 (the model's
readings). (R32, R58, R102, R103, R121, R123.) -/
def Obligations.WaitingStepHasNoEffect : Prop :=
    ∀ s t : State, s.host.rst = false → s.rs = .running → step s = .next t → t.wait.isSome = true →
    ∃ w i r, fetch s = some w ∧ decode w = .ok i ∧ t.wait = some r ∧ r.instr = i ∧
      t = { s with wait := some r, host := { s.host with input := t.host.input }, dbg := none, trace := [] } ∧
      (t.host.input = s.host.input ∨
        (i.opcode = 0x00 ∧ s.takenInput = none ∧ ∃ v, s.host.input = v :: t.host.input ∧ t.takenInput = some v)) ∧
      (t.ioWait = true ↔ i.opcode = 0x01 ∨ (i.opcode = 0x00 ∧ t.takenInput = none)) ∧
      (∀ q, r.reason = .dataMemory q → t.acknowledged = s.acknowledged + s.host.dmemAcks) ∧
      (s.host.dmemAcks = 0 ∨ (∀ q, r.reason ≠ .dataMemory q) → step t = .next t)

/-- For every Running state not in reset whose program fits: the step answers a next state t in which exactly one
holds: it completed (Running, no wait, TC larger), halted (Halted, no wait, TC unchanged), faulted (Fatal, no wait, TC
unchanged) or waits (Running, a wait held, TC unchanged); and a wait is for input with none offered or taken, for a
sink that is not ready, or for a memory request when the memory has acknowledged, of the at most two requests of the
step, only those before it. That the memory's acknowledgements are a number per step of the model is the model's
choice, log 5. (R58, R103, R121, R123.) -/
def Obligations.StepEndsInOneOfFourWays : Prop :=
    ∀ s : State, s.host.rst = false → s.rs = .running → s.host.program.length ≤ Config.progLenMax →
    ∃ t, step s = .next t ∧
      ((t.rs = .running ∧ t.wait = none ∧ s.tc < t.tc) ∨
       (t.rs = .halted ∧ t.wait = none ∧ t.tc = s.tc) ∨
       (t.rs = .fatal ∧ t.wait = none ∧ t.tc = s.tc) ∨
       (t.rs = .running ∧ t.tc = s.tc ∧ ∃ r, t.wait = some r ∧
         ((r.reason = .input ∧ s.host.input = [] ∧ s.takenInput = none) ∨
          (∃ v, r.reason = .output v ∧ s.host.sinkReady = false) ∨
          (∃ q, r.reason = .dataMemory q ∧ t.acknowledged = s.acknowledged + s.host.dmemAcks ∧ t.acknowledged ≤ 1))))

/-- For every instruction but HALT whose operand passes the sign check, in every state where the memory has
acknowledged two requests of the step, before this step of the model or in it (log 5), the sink is ready if it is PUT,
an input value is offered or taken if it is GET, and the pointer cell is not negative if it is indirect: exec answers
a next state with the run state and fault record unchanged, no wait, and the counters increased by the instruction's
cost. (R91, R93, R94, R96, R103.) -/
def Obligations.WellFormedInstructionsComplete : Prop :=
    ∀ (i : Instr) (s : State), i.operandSignOk = true → i.opcode ≠ 0x11 → 2 ≤ s.acknowledged + s.host.dmemAcks →
    (i.opcode = 0x01 → s.host.sinkReady = true) →
    (i.opcode = 0x00 → s.takenInput.isSome = true ∨ s.host.input ≠ []) →
    (i.operandKind = .addressIndirect → 0 ≤ (s.cell i.operand.toNat).toInt) →
    ∃ t, exec i s = .next t ∧ t.rs = s.rs ∧ t.fc = s.fc ∧ t.fpc = s.fpc ∧ t.wait = none ∧
      t.tc = s.tc + cost i ∧ t.ic = s.ic + ioCost i

/-- For every operand k, the 18 instructions in the table's order cost 100, 100, 10, 10, 20, 20, 10, 10, 20, 12, 50,
5, 1, 1, 1, 1, 10, 0, and GET and PUT alone add 100 to the io cost. The cost depends on nothing but the opcode, so it
is the same for a jump taken or not. (R97.) -/
def Obligations.CostTable : Prop :=
    ∀ k : Word,
    ([.get k, .put k, .load k, .store k, .loadi k, .storei k, .add k, .sub k,
      .addi k, .subi k, .set k, .half k, .jump k, .jpos k, .jzero k, .jneg k, .rtrn k, .halt k] : List Instr).map
        (fun i => (cost i, ioCost i)) =
      [(100, 100), (100, 100), (10, 0), (10, 0), (20, 0), (20, 0), (10, 0), (10, 0), (20, 0),
        (12, 0), (50, 0), (5, 0), (1, 0), (1, 0), (1, 0), (1, 0), (10, 0), (0, 0)]

/-- For every Running state not in reset: if the step answers t, then either the word at the pc decodes to an
instruction i, t is Running with no wait, TC grew by the cost of i and IC by 100 if i is GET or PUT and by 0
otherwise; or t is Halted, Fatal or waiting and both counters are unchanged. (R96.) -/
def Obligations.OnlyCompletedStepsAreCharged : Prop :=
    ∀ s t : State, s.host.rst = false → s.rs = .running → step s = .next t →
    (∃ w i, fetch s = some w ∧ decode w = .ok i ∧ t.rs = .running ∧ t.wait = none ∧ t.tc = s.tc + cost i ∧
      t.ic = s.ic + (if i.opcode = 0x00 ∨ i.opcode = 0x01 then 100 else 0)) ∨
    ((t.rs = .halted ∨ t.rs = .fatal ∨ t.wait.isSome = true) ∧ t.tc = s.tc ∧ t.ic = s.ic)

/-- For every state not in reset: if the step answers t, then TC and IC of t are at least those of s; and from a
Running state, if t is Running with no wait, TC grew by at least 1. (R28.) -/
def Obligations.CountersNeverDecrease : Prop :=
    ∀ s t : State, s.host.rst = false → step s = .next t →
    s.tc ≤ t.tc ∧ s.ic ≤ t.ic ∧
    (s.rs = .running → t.rs = .running → t.wait = none →
      ∃ w i, fetch s = some w ∧ decode w = .ok i ∧ t.tc = s.tc + cost i ∧ 1 ≤ cost i) ∧
    (s.rs = .running → t.rs ≠ .running → t.tc = s.tc ∧ t.ic = s.ic)

/-- For every state not in reset: if the step answers t, then RS is unchanged, or it went from Running to Halted with
a HALT word fetched, or from Running to Fatal with a fault class in FC; and from Halted or Fatal it is unchanged.
(R30.) -/
def Obligations.RunStateTransitions : Prop :=
    ∀ s t : State, s.host.rst = false → step s = .next t →
    t.rs = s.rs ∨
    (s.rs = .running ∧ t.rs = .halted ∧ ∃ w, fetch s = some w ∧ opcodeField w = 0x11) ∨
    (s.rs = .running ∧ t.rs = .fatal ∧ t.fc.isSome = true)

/-- For every state s whose step answers t, in reset or not: the program, rst, the sink's and the memory's readiness
are as before; and the input is as before, or the word at the pc is a GET whose step had taken no value yet, the input
lost exactly its first value, and the GET completed with it or now waits on its memory write holding it. That a GET
waiting on its write has taken its value is the model's reading, log 13; the trace is the model's own, log 8. (R68,
R120, R121, R214.) -/
def Obligations.HostSideIsLeftAlone : Prop :=
    ∀ s t : State, step s = .next t →
    t.host.program = s.host.program ∧ t.host.rst = s.host.rst ∧ t.host.sinkReady = s.host.sinkReady ∧
    t.host.dmemAcks = s.host.dmemAcks ∧
    (t.host.input = s.host.input ∨
      ∃ w k v, fetch s = some w ∧ decode w = .ok (.get k) ∧ s.takenInput = none ∧ s.host.input = v :: t.host.input ∧
        ((t.wait = none ∧ t.trace = [.input v, .write k.toNat v]) ∨ t.takenInput = some v))

/-- For every state not in reset whose step answers t: OUT is as before, or the word at the pc is a PUT k that
completed and OUT gained exactly M[k]. (R32, R122, R123.) -/
def Obligations.OutputGrowsOnlyByPut : Prop :=
    ∀ s t : State, s.host.rst = false → step s = .next t →
    t.out = s.out ∨
    ∃ w k, fetch s = some w ∧ decode w = .ok (.put k) ∧ t.wait = none ∧ t.rs = .running ∧ t.out = s.out ++ [s.cell k.toNat]

/-- For every instruction i and states s and t with exec i s = next t: for every address a that is not the one i
writes (k for GET and STORE, M[k] read in s for STOREI, 0 for LOAD, LOADI, ADD, SUB, ADDI, SUBI, SET and HALF, none
for PUT, the jumps, RTRN and HALT), the cell at a reads in t as in s; this holds whether i completes, waits, halts or
faults. (R51, R56, R65, R102.) -/
def Obligations.AtMostOneCellIsWritten : Prop :=
    ∀ (i : Instr) (s t : State), exec i s = .next t → ∀ a, writtenCell i s ≠ some a → t.cell a = s.cell a

/-- For every instruction i and states s and t with exec i s = next t: ACC is unchanged unless i writes cell 0; the
fault record is unchanged unless t is Fatal; RS is unchanged unless i is HALT or faults; OUT is unchanged unless i is
PUT; the host's input is unchanged unless i is GET; IC is unchanged unless i is GET or PUT; the program, rst and the
handshake levels are unchanged. (R15, R24, R96, R102, R180.) -/
def Obligations.RegistersOutsideTheFrame : Prop :=
    ∀ (i : Instr) (s t : State), exec i s = .next t →
    (writtenCell i s ≠ some 0 → t.acc = s.acc) ∧
    (t.rs ≠ .fatal → t.fc = s.fc ∧ t.fpc = s.fpc) ∧
    (t.rs = s.rs ∨ (t.rs = .halted ∧ i.opcode = 0x11) ∨ t = raiseFatal .negativeAddress s) ∧
    (i.opcode ≠ 0x01 → t.out = s.out) ∧
    (i.opcode ≠ 0x00 → t.host = s.host) ∧
    (i.opcode ≠ 0x00 → i.opcode ≠ 0x01 → t.ic = s.ic) ∧
    t.host = { s.host with input := t.host.input }

/-- For every instruction i and states s and t with exec i s = next t: no access of t's trace but the last is a cell
write. The trace, the accesses of the step that completed in order, is the model's own record, log 8. (R65.) -/
def Obligations.ReadsPrecedeTheOneWrite : Prop :=
    ∀ (i : Instr) (s t : State), exec i s = .next t →
    ∀ x ∈ t.trace.dropLast, x.isWrite = false

/-- For every Running state not in reset whose step answers t: an address is in DEF of t exactly when it was in DEF of
s or is the address of a cell access of the step, address 0 of the accumulator included; a step that halts, faults or
waits adds none. The accesses are read from the trace, the model's own record, which a step that does not complete
leaves empty (log 8). (R13, R33, R102, R180.) -/
def Obligations.DefinedGrowsByTheAccesses : Prop :=
    ∀ s t : State, s.host.rst = false → s.rs = .running → step s = .next t →
    (∀ a, a ∈ t.defined ↔ a ∈ s.defined ∨ a ∈ accessAddresses t.trace) ∧
    (t.rs ≠ .running ∨ t.wait.isSome = true → t.defined = s.defined ∧ t.trace = [])

/-- For every state whose pc is in 0 .. 2^63-1 and every instruction i with exec i s = next t: as integers, if t is
Halted, Fatal or waiting the pc is unchanged; else it is pc + k for JUMP and for a conditional jump whose condition on
ACC holds, M[k] for RTRN, and pc + 1 for every other instruction and a conditional jump not taken; and the new pc lies
in -2^63 .. 2^64-2. (R22.) -/
def Obligations.NextPcIsExact : Prop :=
    ∀ (i : Instr) (s t : State), s.rs = .running → 0 ≤ s.pc.toInt → s.pc.toInt < 2 ^ 63 → exec i s = .next t →
    (-2 ^ 63 ≤ t.pc.toInt ∧ t.pc.toInt ≤ 2 ^ 64 - 2) ∧
    (t.rs ≠ .running ∨ t.wait.isSome = true → t.pc = s.pc) ∧
    (t.rs = .running → t.wait = none →
      t.pc.toInt = (match i with
        | .jump k => s.pc.toInt + k.toInt
        | .jpos k => if 0 < s.acc.toInt then s.pc.toInt + k.toInt else s.pc.toInt + 1
        | .jzero k => if s.acc.toInt = 0 then s.pc.toInt + k.toInt else s.pc.toInt + 1
        | .jneg k => if s.acc.toInt < 0 then s.pc.toInt + k.toInt else s.pc.toInt + 1
        | .rtrn k => (s.cell k.toNat).toInt
        | .halt _ => s.pc.toInt
        | _ => s.pc.toInt + 1))

/-- For all a and b: the signed value of alu_add(a, b) is a + b when that lies in -2^63 .. 2^63-1, always lies in that
range, and is congruent to a + b modulo 2^64; the same for alu_sub and a - b. (R99.) -/
def Obligations.AdderWrapsAround : Prop :=
    ∀ a b : Word,
    (-2 ^ 63 ≤ a.toInt + b.toInt → a.toInt + b.toInt < 2 ^ 63 → (aluAdd a b).toInt = a.toInt + b.toInt) ∧
    (-2 ^ 63 ≤ a.toInt - b.toInt → a.toInt - b.toInt < 2 ^ 63 → (aluSub a b).toInt = a.toInt - b.toInt) ∧
    (-2 ^ 63 ≤ (aluAdd a b).toInt ∧ (aluAdd a b).toInt < 2 ^ 63 ∧
      ((aluAdd a b).toInt - (a.toInt + b.toInt)) % 2 ^ 64 = 0) ∧
    (-2 ^ 63 ≤ (aluSub a b).toInt ∧ (aluSub a b).toInt < 2 ^ 63 ∧
      ((aluSub a b).toInt - (a.toInt - b.toInt)) % 2 ^ 64 = 0)

/-- For every a: the signed value of asr1(a) is a / 2 rounded toward minus infinity; bit 63 of the result is bit 63 of
a, and bit i is bit i+1 of a for i < 63; asr1(-3) = -2 and asr1(-1) = -1. (R100.) -/
def Obligations.HalvingRoundsDown : Prop :=
    (∀ a : Word, (asr1 a).toInt = a.toInt / 2 ∧ (asr1 a).getLsbD 63 = a.getLsbD 63 ∧
      ∀ i, i < 63 → (asr1 a).getLsbD i = a.getLsbD (i + 1)) ∧
    asr1 (-3) = -2 ∧ asr1 (-1) = -1

/-- For every accumulator value: pos is true exactly when it is > 0, zero exactly when it is 0, neg exactly when it is
< 0, and exactly one of the three is true. (R101.) -/
def Obligations.ExactlyOneCondition : Prop :=
    ∀ a : Word,
    (condPos a = true ↔ 0 < a.toInt) ∧ (condZero a = true ↔ a.toInt = 0) ∧ (condNeg a = true ↔ a.toInt < 0) ∧
    ((condPos a = true ∧ condZero a = false ∧ condNeg a = false) ∨
     (condPos a = false ∧ condZero a = true ∧ condNeg a = false) ∨
     (condPos a = false ∧ condZero a = false ∧ condNeg a = true))

/-- In every state whose data memory is in canonical form, for every k >= 0 such that k is 0 or the memory
acknowledges at least one request in each step: STORE k completes, LOAD k completes from the state it leaves, ACC is
then what it was at the start, M[k] reads that value, and TC grew by 20. (R135.) -/
def Obligations.StoreThenLoadRoundTrip : Prop :=
    ∀ (s : State) (k : Word), Memory.wf s.mem = true → 0 ≤ k.toInt → (k = 0 ∨ 1 ≤ s.host.dmemAcks) →
    ∃ t u, exec (.store k) s = .next t ∧ exec (.load k) t = .next u ∧
      u.acc = s.acc ∧ u.cell k.toNat = s.acc ∧ u.tc = s.tc + 20

/-- For all states s and t that agree on RS, pc, ACC, the data memory, the step in progress and the host's side, and
differ at will in the counters, the fault record, DEF, OUT, the debug port and the trace (the model's own, log 8): if
the step from s answers s', then the step from t answers some t' that agrees with s' in the same way; without reset
both add the same amount to TC and to IC and the same values to OUT; and if one enters Fatal so does the other, with
the same class and FPC. (R26, R33, R104, R195.) -/
def Obligations.ObserversNeverInfluenceExecution : Prop :=
    ∀ s t s' : State, s.SameCore t → step s = .next s' →
    ∃ t', step t = .next t' ∧ s'.SameCore t' ∧
      (s.host.rst = false →
        (s'.tc + t.tc = t'.tc + s.tc ∧ s'.ic + t.ic = t'.ic + s.ic ∧
         ∃ vs, s'.out = s.out ++ vs ∧ t'.out = t.out ++ vs)) ∧
      (s.host.rst = false → s.rs = .running → s'.rs = .fatal → s'.fc = t'.fc ∧ s'.fpc = t'.fpc)

/-- For every Running state not in reset whose step answers t: if t is Running with no wait, the port shows the old
pc, the opcode and operand fields of the word executed, ACC of t and whether 0 is in DEF of t, and the opcode name is
the mnemonic of that opcode; if t is Halted, Fatal or waiting, dbg_valid is 0. (R195, R196.) -/
def Obligations.SnapshotExactlyAfterCompletion : Prop :=
    ∀ s t : State, s.host.rst = false → s.rs = .running → step s = .next t →
    (t.rs = .running → t.wait = none →
      ∃ w d, fetch s = some w ∧ t.dbg = some d ∧ d.pc = s.pc.setWidth 63 ∧ d.opcode = opcodeField w ∧
        d.operand = operandField w ∧ d.acc = t.acc ∧ d.accDef = decide (0 ∈ t.defined) ∧
        d.opcodeName = mnemonicOf (opcodeField w)) ∧
    (t.rs ≠ .running ∨ t.wait.isSome = true → dbgValidPort t = false)

/-- In every state that satisfies the invariant: the enumeration's addresses strictly ascend; a pair (a, v) is in it
exactly when a is in DEF and v = M[a]; and it is the pair of address 0 with ACC, when 0 is in DEF, followed by the
memory subsystem's part, and a snapshot on the port supplies that first pair through dbg_acc and dbg_acc_def. (R197.)
-/
def Obligations.EnumerationIsAscending : Prop :=
    ∀ s : State, s.Inv →
    (s.enumeration.map Prod.fst).Pairwise (· < ·) ∧
    (∀ a v, (a, v) ∈ s.enumeration ↔ a ∈ s.defined ∧ v = s.cell a) ∧
    s.enumeration = (if 0 ∈ s.defined then [(0, s.acc)] else []) ++ s.memoryEnumeration ∧
    (∀ d, s.dbg = some d →
      s.enumeration = (if d.accDef = true then [(0, d.acc)] else []) ++ s.memoryEnumeration)

/-- For every state: run_state is 0, 1, 2 for Running, Halted, Fatal; fault_class is 0, 1, 2, 3 for none,
InvalidProgramCounter, NegativeAddress, UnknownOpcode; fault_pc is FPC; total_cost and io_cost as numbers are TC and
IC while those are below 2^64; there is a final report exactly when the run has ended, and it holds these values and
OUT. (R29, R31, R35, R181, R192.) -/
def Obligations.StatusPortCodes : Prop :=
    ∀ s : State,
    (s.rs = .running → runStatePort s = 0) ∧ (s.rs = .halted → runStatePort s = 1) ∧ (s.rs = .fatal → runStatePort s = 2) ∧
    (s.fc = none → faultClassPort s = 0) ∧ (s.fc = some .invalidProgramCounter → faultClassPort s = 1) ∧
    (s.fc = some .negativeAddress → faultClassPort s = 2) ∧ (s.fc = some .unknownOpcode → faultClassPort s = 3) ∧
    faultPcPort s = s.fpc ∧
    (s.tc < 2 ^ 64 → (totalCostPort s).toNat = s.tc) ∧ (s.ic < 2 ^ 64 → (ioCostPort s).toNat = s.ic) ∧
    (s.rs = .running → finalReport s = none) ∧
    (s.Ended → finalReport s = some
      { runState := runStatePort s, totalCost := totalCostPort s, ioCost := ioCostPort s,
        faultClass := faultClassPort s, faultPc := s.fpc, output := s.out })

/-- For every Running state with a fitting program and a pc in range whose word at the pc decodes to a jump, a
conditional jump or RTRN: if its step answers a Running state t with no wait, then TC grew by the instruction's cost,
and if the pc of t is negative or at least PROG_LEN, the next step answers a Fatal state with class
InvalidProgramCounter, FPC = the pc of t and the counters of t. (R166, R182.) -/
def Obligations.TransferTargetsAreCheckedAtTheNextFetch : Prop :=
    ∀ (s t : State) (w : InsnWord) (i : Instr),
    s.host.rst = false → s.rs = .running → s.host.program.length ≤ Config.progLenMax →
    0 ≤ s.pc.toInt → s.host.program[s.pc.toNat]? = some w → decode w = .ok i →
    i.opcode ∈ ([0x0C, 0x0D, 0x0E, 0x0F, 0x10] : List OpcodeField) →
    step s = .next t → t.rs = .running → t.wait = none →
    t.tc = s.tc + cost i ∧
    (t.pc.toInt < 0 ∨ (s.host.program.length : Int) ≤ t.pc.toInt →
      ∃ u, step t = .next u ∧ u.rs = .fatal ∧ u.fc = some .invalidProgramCounter ∧ u.fpc = t.pc ∧ u.tc = t.tc ∧ u.ic = t.ic)

/-- For every state, reachable or not, the step never stops with the model's own fault, which the memory operations
raise for an address outside 0 .. 2^63-1: no instruction forms one. The spec's three faults are not meant: they are
next states whose RS is Fatal (log 16, the model's choice). And the step is refused only for a Running machine not in
reset whose program is longer than PROG_LEN_MAX (taken as 2^63, log 10). (R13, R55, R58.) -/
def Obligations.NoStepLeavesTheAddressSpace : Prop :=
    ∀ s : State,
    (∀ f, step s ≠ .fault f) ∧
    (∀ r, step s = .refused r →
      r = .programTooLong ∧ s.host.rst = false ∧ s.rs = .running ∧ Config.progLenMax < s.host.program.length)
end

