-- ==== Sys2Proof/Laws/Decode.lean ====
section
/-! SUPPORT. The two fields of an instruction word: what the encoder puts in them, and that they make up the whole word. -/

namespace Sys2Proof

/-- The opcode field of a word put together from its two fields. -/
@[simp] theorem opcodeField_append (op : OpcodeField) (k : Word) : opcodeField (op ++ k) = op := by
  unfold opcodeField
  rw [BitVec.extractLsb'_append_eq_of_le (by omega)]
  simp

/-- The operand field of a word put together from its two fields. -/
@[simp] theorem operandField_append (op : OpcodeField) (k : Word) : operandField (op ++ k) = k := by
  unfold operandField
  rw [BitVec.extractLsb'_append_eq_of_add_le (by omega)]
  simp

/-- No bit of a word lies outside its two fields. -/
theorem fields_append (w : InsnWord) : opcodeField w ++ operandField w = w := by
  unfold opcodeField operandField
  apply BitVec.eq_of_getLsbD_eq
  intro i hi
  simp only [BitVec.getLsbD_append, BitVec.getLsbD_extractLsb']
  by_cases h : i < 64
  · simp [h]
  · simp only [h, if_false]
    have : i - 64 < 8 := by omega
    simp only [this, decide_true, Bool.true_and]
    congr 1; omega

end Sys2Proof
end

