-- ==== Sys2Proof/Laws/State.lean ====
section
/-! SUPPORT. One lemma per field per state update, so that no later proof unfolds a record update. -/

namespace Sys2Proof.Machine

/-! ### `State.setCell` -/

@[simp] theorem State.setCell_rs (s : State) (a : Nat) (v : Word) : (s.setCell a v).rs = s.rs := rfl
@[simp] theorem State.setCell_pc (s : State) (a : Nat) (v : Word) : (s.setCell a v).pc = s.pc := rfl
@[simp] theorem State.setCell_acc (s : State) (a : Nat) (v : Word) : (s.setCell a v).acc = if a = 0 then v else s.acc := rfl
@[simp] theorem State.setCell_mem (s : State) (a : Nat) (v : Word) : (s.setCell a v).mem = if a = 0 then s.mem else Memory.write s.mem a v := rfl
@[simp] theorem State.setCell_tc (s : State) (a : Nat) (v : Word) : (s.setCell a v).tc = s.tc := rfl
@[simp] theorem State.setCell_ic (s : State) (a : Nat) (v : Word) : (s.setCell a v).ic = s.ic := rfl
@[simp] theorem State.setCell_fc (s : State) (a : Nat) (v : Word) : (s.setCell a v).fc = s.fc := rfl
@[simp] theorem State.setCell_fpc (s : State) (a : Nat) (v : Word) : (s.setCell a v).fpc = s.fpc := rfl
@[simp] theorem State.setCell_defined (s : State) (a : Nat) (v : Word) : (s.setCell a v).defined = s.defined := rfl
@[simp] theorem State.setCell_out (s : State) (a : Nat) (v : Word) : (s.setCell a v).out = s.out := rfl
@[simp] theorem State.setCell_wait (s : State) (a : Nat) (v : Word) : (s.setCell a v).wait = s.wait := rfl
@[simp] theorem State.setCell_dbg (s : State) (a : Nat) (v : Word) : (s.setCell a v).dbg = s.dbg := rfl
@[simp] theorem State.setCell_trace (s : State) (a : Nat) (v : Word) : (s.setCell a v).trace = s.trace := rfl
@[simp] theorem State.setCell_host (s : State) (a : Nat) (v : Word) : (s.setCell a v).host = s.host := rfl

/-! ### `State.define` -/

@[simp] theorem State.define_rs (s : State) (a : Nat) : (s.define a).rs = s.rs := rfl
@[simp] theorem State.define_pc (s : State) (a : Nat) : (s.define a).pc = s.pc := rfl
@[simp] theorem State.define_acc (s : State) (a : Nat) : (s.define a).acc = s.acc := rfl
@[simp] theorem State.define_mem (s : State) (a : Nat) : (s.define a).mem = s.mem := rfl
@[simp] theorem State.define_tc (s : State) (a : Nat) : (s.define a).tc = s.tc := rfl
@[simp] theorem State.define_ic (s : State) (a : Nat) : (s.define a).ic = s.ic := rfl
@[simp] theorem State.define_fc (s : State) (a : Nat) : (s.define a).fc = s.fc := rfl
@[simp] theorem State.define_fpc (s : State) (a : Nat) : (s.define a).fpc = s.fpc := rfl
@[simp] theorem State.define_defined (s : State) (a : Nat) : (s.define a).defined = AddrSet.insert a s.defined := rfl
@[simp] theorem State.define_out (s : State) (a : Nat) : (s.define a).out = s.out := rfl
@[simp] theorem State.define_wait (s : State) (a : Nat) : (s.define a).wait = s.wait := rfl
@[simp] theorem State.define_dbg (s : State) (a : Nat) : (s.define a).dbg = s.dbg := rfl
@[simp] theorem State.define_trace (s : State) (a : Nat) : (s.define a).trace = s.trace := rfl
@[simp] theorem State.define_host (s : State) (a : Nat) : (s.define a).host = s.host := rfl

/-! ### `State.note` -/

@[simp] theorem State.note_rs (s : State) (x : Access) : (s.note x).rs = s.rs := rfl
@[simp] theorem State.note_pc (s : State) (x : Access) : (s.note x).pc = s.pc := rfl
@[simp] theorem State.note_acc (s : State) (x : Access) : (s.note x).acc = s.acc := rfl
@[simp] theorem State.note_mem (s : State) (x : Access) : (s.note x).mem = s.mem := rfl
@[simp] theorem State.note_tc (s : State) (x : Access) : (s.note x).tc = s.tc := rfl
@[simp] theorem State.note_ic (s : State) (x : Access) : (s.note x).ic = s.ic := rfl
@[simp] theorem State.note_fc (s : State) (x : Access) : (s.note x).fc = s.fc := rfl
@[simp] theorem State.note_fpc (s : State) (x : Access) : (s.note x).fpc = s.fpc := rfl
@[simp] theorem State.note_defined (s : State) (x : Access) : (s.note x).defined = s.defined := rfl
@[simp] theorem State.note_out (s : State) (x : Access) : (s.note x).out = s.out := rfl
@[simp] theorem State.note_wait (s : State) (x : Access) : (s.note x).wait = s.wait := rfl
@[simp] theorem State.note_dbg (s : State) (x : Access) : (s.note x).dbg = s.dbg := rfl
@[simp] theorem State.note_trace (s : State) (x : Access) : (s.note x).trace = s.trace ++ [x] := rfl
@[simp] theorem State.note_host (s : State) (x : Access) : (s.note x).host = s.host := rfl

/-! ### `State.consumeInput` -/

@[simp] theorem State.consumeInput_rs (s : State) (rest : List Word) : (s.consumeInput rest).rs = s.rs := rfl
@[simp] theorem State.consumeInput_pc (s : State) (rest : List Word) : (s.consumeInput rest).pc = s.pc := rfl
@[simp] theorem State.consumeInput_acc (s : State) (rest : List Word) : (s.consumeInput rest).acc = s.acc := rfl
@[simp] theorem State.consumeInput_mem (s : State) (rest : List Word) : (s.consumeInput rest).mem = s.mem := rfl
@[simp] theorem State.consumeInput_tc (s : State) (rest : List Word) : (s.consumeInput rest).tc = s.tc := rfl
@[simp] theorem State.consumeInput_ic (s : State) (rest : List Word) : (s.consumeInput rest).ic = s.ic := rfl
@[simp] theorem State.consumeInput_fc (s : State) (rest : List Word) : (s.consumeInput rest).fc = s.fc := rfl
@[simp] theorem State.consumeInput_fpc (s : State) (rest : List Word) : (s.consumeInput rest).fpc = s.fpc := rfl
@[simp] theorem State.consumeInput_defined (s : State) (rest : List Word) : (s.consumeInput rest).defined = s.defined := rfl
@[simp] theorem State.consumeInput_out (s : State) (rest : List Word) : (s.consumeInput rest).out = s.out := rfl
@[simp] theorem State.consumeInput_wait (s : State) (rest : List Word) : (s.consumeInput rest).wait = s.wait := rfl
@[simp] theorem State.consumeInput_dbg (s : State) (rest : List Word) : (s.consumeInput rest).dbg = s.dbg := rfl
@[simp] theorem State.consumeInput_trace (s : State) (rest : List Word) : (s.consumeInput rest).trace = s.trace := rfl
@[simp] theorem State.consumeInput_host (s : State) (rest : List Word) : (s.consumeInput rest).host = { s.host with input := rest } := rfl

/-! ### `State.emit` -/

@[simp] theorem State.emit_rs (s : State) (v : Word) : (s.emit v).rs = s.rs := rfl
@[simp] theorem State.emit_pc (s : State) (v : Word) : (s.emit v).pc = s.pc := rfl
@[simp] theorem State.emit_acc (s : State) (v : Word) : (s.emit v).acc = s.acc := rfl
@[simp] theorem State.emit_mem (s : State) (v : Word) : (s.emit v).mem = s.mem := rfl
@[simp] theorem State.emit_tc (s : State) (v : Word) : (s.emit v).tc = s.tc := rfl
@[simp] theorem State.emit_ic (s : State) (v : Word) : (s.emit v).ic = s.ic := rfl
@[simp] theorem State.emit_fc (s : State) (v : Word) : (s.emit v).fc = s.fc := rfl
@[simp] theorem State.emit_fpc (s : State) (v : Word) : (s.emit v).fpc = s.fpc := rfl
@[simp] theorem State.emit_defined (s : State) (v : Word) : (s.emit v).defined = s.defined := rfl
@[simp] theorem State.emit_out (s : State) (v : Word) : (s.emit v).out = s.out ++ [v] := rfl
@[simp] theorem State.emit_wait (s : State) (v : Word) : (s.emit v).wait = s.wait := rfl
@[simp] theorem State.emit_dbg (s : State) (v : Word) : (s.emit v).dbg = s.dbg := rfl
@[simp] theorem State.emit_trace (s : State) (v : Word) : (s.emit v).trace = s.trace := rfl
@[simp] theorem State.emit_host (s : State) (v : Word) : (s.emit v).host = s.host := rfl

/-! ### `State.fresh` -/

@[simp] theorem State.fresh_rs (s : State) : (s.fresh).rs = s.rs := rfl
@[simp] theorem State.fresh_pc (s : State) : (s.fresh).pc = s.pc := rfl
@[simp] theorem State.fresh_acc (s : State) : (s.fresh).acc = s.acc := rfl
@[simp] theorem State.fresh_mem (s : State) : (s.fresh).mem = s.mem := rfl
@[simp] theorem State.fresh_tc (s : State) : (s.fresh).tc = s.tc := rfl
@[simp] theorem State.fresh_ic (s : State) : (s.fresh).ic = s.ic := rfl
@[simp] theorem State.fresh_fc (s : State) : (s.fresh).fc = s.fc := rfl
@[simp] theorem State.fresh_fpc (s : State) : (s.fresh).fpc = s.fpc := rfl
@[simp] theorem State.fresh_defined (s : State) : (s.fresh).defined = s.defined := rfl
@[simp] theorem State.fresh_out (s : State) : (s.fresh).out = s.out := rfl
@[simp] theorem State.fresh_wait (s : State) : (s.fresh).wait = s.wait := rfl
@[simp] theorem State.fresh_dbg (s : State) : (s.fresh).dbg = s.dbg := rfl
@[simp] theorem State.fresh_trace (s : State) : (s.fresh).trace = [] := rfl
@[simp] theorem State.fresh_host (s : State) : (s.fresh).host = s.host := rfl

/-! ### `State.publish` -/

@[simp] theorem State.publish_rs (s : State) (d : Snapshot) : (s.publish d).rs = s.rs := rfl
@[simp] theorem State.publish_pc (s : State) (d : Snapshot) : (s.publish d).pc = s.pc := rfl
@[simp] theorem State.publish_acc (s : State) (d : Snapshot) : (s.publish d).acc = s.acc := rfl
@[simp] theorem State.publish_mem (s : State) (d : Snapshot) : (s.publish d).mem = s.mem := rfl
@[simp] theorem State.publish_tc (s : State) (d : Snapshot) : (s.publish d).tc = s.tc := rfl
@[simp] theorem State.publish_ic (s : State) (d : Snapshot) : (s.publish d).ic = s.ic := rfl
@[simp] theorem State.publish_fc (s : State) (d : Snapshot) : (s.publish d).fc = s.fc := rfl
@[simp] theorem State.publish_fpc (s : State) (d : Snapshot) : (s.publish d).fpc = s.fpc := rfl
@[simp] theorem State.publish_defined (s : State) (d : Snapshot) : (s.publish d).defined = s.defined := rfl
@[simp] theorem State.publish_out (s : State) (d : Snapshot) : (s.publish d).out = s.out := rfl
@[simp] theorem State.publish_wait (s : State) (d : Snapshot) : (s.publish d).wait = none := rfl
@[simp] theorem State.publish_dbg (s : State) (d : Snapshot) : (s.publish d).dbg = some d := rfl
@[simp] theorem State.publish_trace (s : State) (d : Snapshot) : (s.publish d).trace = s.trace := rfl
@[simp] theorem State.publish_host (s : State) (d : Snapshot) : (s.publish d).host = s.host := rfl

/-! ### `charge` -/

@[simp] theorem charge_rs (i : Instr) (s : State) : (charge i s).rs = s.rs := rfl
@[simp] theorem charge_pc (i : Instr) (s : State) : (charge i s).pc = s.pc := rfl
@[simp] theorem charge_acc (i : Instr) (s : State) : (charge i s).acc = s.acc := rfl
@[simp] theorem charge_mem (i : Instr) (s : State) : (charge i s).mem = s.mem := rfl
@[simp] theorem charge_tc (i : Instr) (s : State) : (charge i s).tc = s.tc + cost i := rfl
@[simp] theorem charge_ic (i : Instr) (s : State) : (charge i s).ic = s.ic + ioCost i := rfl
@[simp] theorem charge_fc (i : Instr) (s : State) : (charge i s).fc = s.fc := rfl
@[simp] theorem charge_fpc (i : Instr) (s : State) : (charge i s).fpc = s.fpc := rfl
@[simp] theorem charge_defined (i : Instr) (s : State) : (charge i s).defined = s.defined := rfl
@[simp] theorem charge_out (i : Instr) (s : State) : (charge i s).out = s.out := rfl
@[simp] theorem charge_wait (i : Instr) (s : State) : (charge i s).wait = s.wait := rfl
@[simp] theorem charge_dbg (i : Instr) (s : State) : (charge i s).dbg = s.dbg := rfl
@[simp] theorem charge_trace (i : Instr) (s : State) : (charge i s).trace = s.trace := rfl
@[simp] theorem charge_host (i : Instr) (s : State) : (charge i s).host = s.host := rfl

/-! ### `advance` -/

@[simp] theorem advance_rs (s : State) : (advance s).rs = s.rs := rfl
@[simp] theorem advance_pc (s : State) : (advance s).pc = s.pc + 1 := rfl
@[simp] theorem advance_acc (s : State) : (advance s).acc = s.acc := rfl
@[simp] theorem advance_mem (s : State) : (advance s).mem = s.mem := rfl
@[simp] theorem advance_tc (s : State) : (advance s).tc = s.tc := rfl
@[simp] theorem advance_ic (s : State) : (advance s).ic = s.ic := rfl
@[simp] theorem advance_fc (s : State) : (advance s).fc = s.fc := rfl
@[simp] theorem advance_fpc (s : State) : (advance s).fpc = s.fpc := rfl
@[simp] theorem advance_defined (s : State) : (advance s).defined = s.defined := rfl
@[simp] theorem advance_out (s : State) : (advance s).out = s.out := rfl
@[simp] theorem advance_wait (s : State) : (advance s).wait = s.wait := rfl
@[simp] theorem advance_dbg (s : State) : (advance s).dbg = s.dbg := rfl
@[simp] theorem advance_trace (s : State) : (advance s).trace = s.trace := rfl
@[simp] theorem advance_host (s : State) : (advance s).host = s.host := rfl

/-! ### `jumpBy` -/

@[simp] theorem jumpBy_rs (k : Word) (s : State) : (jumpBy k s).rs = s.rs := rfl
@[simp] theorem jumpBy_pc (k : Word) (s : State) : (jumpBy k s).pc = s.pc + k.signExtend 65 := rfl
@[simp] theorem jumpBy_acc (k : Word) (s : State) : (jumpBy k s).acc = s.acc := rfl
@[simp] theorem jumpBy_mem (k : Word) (s : State) : (jumpBy k s).mem = s.mem := rfl
@[simp] theorem jumpBy_tc (k : Word) (s : State) : (jumpBy k s).tc = s.tc := rfl
@[simp] theorem jumpBy_ic (k : Word) (s : State) : (jumpBy k s).ic = s.ic := rfl
@[simp] theorem jumpBy_fc (k : Word) (s : State) : (jumpBy k s).fc = s.fc := rfl
@[simp] theorem jumpBy_fpc (k : Word) (s : State) : (jumpBy k s).fpc = s.fpc := rfl
@[simp] theorem jumpBy_defined (k : Word) (s : State) : (jumpBy k s).defined = s.defined := rfl
@[simp] theorem jumpBy_out (k : Word) (s : State) : (jumpBy k s).out = s.out := rfl
@[simp] theorem jumpBy_wait (k : Word) (s : State) : (jumpBy k s).wait = s.wait := rfl
@[simp] theorem jumpBy_dbg (k : Word) (s : State) : (jumpBy k s).dbg = s.dbg := rfl
@[simp] theorem jumpBy_trace (k : Word) (s : State) : (jumpBy k s).trace = s.trace := rfl
@[simp] theorem jumpBy_host (k : Word) (s : State) : (jumpBy k s).host = s.host := rfl

/-! ### `jumpTo` -/

@[simp] theorem jumpTo_rs (t : Word) (s : State) : (jumpTo t s).rs = s.rs := rfl
@[simp] theorem jumpTo_pc (t : Word) (s : State) : (jumpTo t s).pc = t.signExtend 65 := rfl
@[simp] theorem jumpTo_acc (t : Word) (s : State) : (jumpTo t s).acc = s.acc := rfl
@[simp] theorem jumpTo_mem (t : Word) (s : State) : (jumpTo t s).mem = s.mem := rfl
@[simp] theorem jumpTo_tc (t : Word) (s : State) : (jumpTo t s).tc = s.tc := rfl
@[simp] theorem jumpTo_ic (t : Word) (s : State) : (jumpTo t s).ic = s.ic := rfl
@[simp] theorem jumpTo_fc (t : Word) (s : State) : (jumpTo t s).fc = s.fc := rfl
@[simp] theorem jumpTo_fpc (t : Word) (s : State) : (jumpTo t s).fpc = s.fpc := rfl
@[simp] theorem jumpTo_defined (t : Word) (s : State) : (jumpTo t s).defined = s.defined := rfl
@[simp] theorem jumpTo_out (t : Word) (s : State) : (jumpTo t s).out = s.out := rfl
@[simp] theorem jumpTo_wait (t : Word) (s : State) : (jumpTo t s).wait = s.wait := rfl
@[simp] theorem jumpTo_dbg (t : Word) (s : State) : (jumpTo t s).dbg = s.dbg := rfl
@[simp] theorem jumpTo_trace (t : Word) (s : State) : (jumpTo t s).trace = s.trace := rfl
@[simp] theorem jumpTo_host (t : Word) (s : State) : (jumpTo t s).host = s.host := rfl

/-! ### `raiseFatal` -/

@[simp] theorem raiseFatal_rs (kind : FatalKind) (s : State) : (raiseFatal kind s).rs = .fatal := rfl
@[simp] theorem raiseFatal_pc (kind : FatalKind) (s : State) : (raiseFatal kind s).pc = s.pc := rfl
@[simp] theorem raiseFatal_acc (kind : FatalKind) (s : State) : (raiseFatal kind s).acc = s.acc := rfl
@[simp] theorem raiseFatal_mem (kind : FatalKind) (s : State) : (raiseFatal kind s).mem = s.mem := rfl
@[simp] theorem raiseFatal_tc (kind : FatalKind) (s : State) : (raiseFatal kind s).tc = s.tc := rfl
@[simp] theorem raiseFatal_ic (kind : FatalKind) (s : State) : (raiseFatal kind s).ic = s.ic := rfl
@[simp] theorem raiseFatal_fc (kind : FatalKind) (s : State) : (raiseFatal kind s).fc = some kind := rfl
@[simp] theorem raiseFatal_fpc (kind : FatalKind) (s : State) : (raiseFatal kind s).fpc = s.pc := rfl
@[simp] theorem raiseFatal_defined (kind : FatalKind) (s : State) : (raiseFatal kind s).defined = s.defined := rfl
@[simp] theorem raiseFatal_out (kind : FatalKind) (s : State) : (raiseFatal kind s).out = s.out := rfl
@[simp] theorem raiseFatal_wait (kind : FatalKind) (s : State) : (raiseFatal kind s).wait = none := rfl
@[simp] theorem raiseFatal_dbg (kind : FatalKind) (s : State) : (raiseFatal kind s).dbg = none := rfl
@[simp] theorem raiseFatal_trace (kind : FatalKind) (s : State) : (raiseFatal kind s).trace = [] := rfl
@[simp] theorem raiseFatal_host (kind : FatalKind) (s : State) : (raiseFatal kind s).host = s.host := rfl

/-! ### `haltRun` -/

@[simp] theorem haltRun_rs (s : State) : (haltRun s).rs = .halted := rfl
@[simp] theorem haltRun_pc (s : State) : (haltRun s).pc = s.pc := rfl
@[simp] theorem haltRun_acc (s : State) : (haltRun s).acc = s.acc := rfl
@[simp] theorem haltRun_mem (s : State) : (haltRun s).mem = s.mem := rfl
@[simp] theorem haltRun_tc (s : State) : (haltRun s).tc = s.tc := rfl
@[simp] theorem haltRun_ic (s : State) : (haltRun s).ic = s.ic := rfl
@[simp] theorem haltRun_fc (s : State) : (haltRun s).fc = s.fc := rfl
@[simp] theorem haltRun_fpc (s : State) : (haltRun s).fpc = s.fpc := rfl
@[simp] theorem haltRun_defined (s : State) : (haltRun s).defined = s.defined := rfl
@[simp] theorem haltRun_out (s : State) : (haltRun s).out = s.out := rfl
@[simp] theorem haltRun_wait (s : State) : (haltRun s).wait = none := rfl
@[simp] theorem haltRun_dbg (s : State) : (haltRun s).dbg = none := rfl
@[simp] theorem haltRun_trace (s : State) : (haltRun s).trace = [] := rfl
@[simp] theorem haltRun_host (s : State) : (haltRun s).host = s.host := rfl

/-! ### `holdWait` -/

@[simp] theorem holdWait_rs (i : Instr) (reason : WaitReason) (s mid : State) : (holdWait i reason s mid).rs = s.rs := rfl
@[simp] theorem holdWait_pc (i : Instr) (reason : WaitReason) (s mid : State) : (holdWait i reason s mid).pc = s.pc := rfl
@[simp] theorem holdWait_acc (i : Instr) (reason : WaitReason) (s mid : State) : (holdWait i reason s mid).acc = s.acc := rfl
@[simp] theorem holdWait_mem (i : Instr) (reason : WaitReason) (s mid : State) : (holdWait i reason s mid).mem = s.mem := rfl
@[simp] theorem holdWait_tc (i : Instr) (reason : WaitReason) (s mid : State) : (holdWait i reason s mid).tc = s.tc := rfl
@[simp] theorem holdWait_ic (i : Instr) (reason : WaitReason) (s mid : State) : (holdWait i reason s mid).ic = s.ic := rfl
@[simp] theorem holdWait_fc (i : Instr) (reason : WaitReason) (s mid : State) : (holdWait i reason s mid).fc = s.fc := rfl
@[simp] theorem holdWait_fpc (i : Instr) (reason : WaitReason) (s mid : State) : (holdWait i reason s mid).fpc = s.fpc := rfl
@[simp] theorem holdWait_defined (i : Instr) (reason : WaitReason) (s mid : State) :
    (holdWait i reason s mid).defined = s.defined := rfl
@[simp] theorem holdWait_out (i : Instr) (reason : WaitReason) (s mid : State) : (holdWait i reason s mid).out = s.out := rfl
@[simp] theorem holdWait_wait (i : Instr) (reason : WaitReason) (s mid : State) :
    (holdWait i reason s mid).wait = some { instr := i, reason := reason, done := mid.trace } := rfl
@[simp] theorem holdWait_dbg (i : Instr) (reason : WaitReason) (s mid : State) : (holdWait i reason s mid).dbg = none := rfl
@[simp] theorem holdWait_trace (i : Instr) (reason : WaitReason) (s mid : State) : (holdWait i reason s mid).trace = [] := rfl
@[simp] theorem holdWait_host (i : Instr) (reason : WaitReason) (s mid : State) :
    (holdWait i reason s mid).host = mid.host := rfl

/-! ### `applyReset` -/

@[simp] theorem applyReset_rs (s : State) : (applyReset s).rs = State.reset.rs := rfl
@[simp] theorem applyReset_pc (s : State) : (applyReset s).pc = State.reset.pc := rfl
@[simp] theorem applyReset_acc (s : State) : (applyReset s).acc = State.reset.acc := rfl
@[simp] theorem applyReset_mem (s : State) : (applyReset s).mem = State.reset.mem := rfl
@[simp] theorem applyReset_tc (s : State) : (applyReset s).tc = State.reset.tc := rfl
@[simp] theorem applyReset_ic (s : State) : (applyReset s).ic = State.reset.ic := rfl
@[simp] theorem applyReset_fc (s : State) : (applyReset s).fc = State.reset.fc := rfl
@[simp] theorem applyReset_fpc (s : State) : (applyReset s).fpc = State.reset.fpc := rfl
@[simp] theorem applyReset_defined (s : State) : (applyReset s).defined = State.reset.defined := rfl
@[simp] theorem applyReset_out (s : State) : (applyReset s).out = State.reset.out := rfl
@[simp] theorem applyReset_wait (s : State) : (applyReset s).wait = State.reset.wait := rfl
@[simp] theorem applyReset_dbg (s : State) : (applyReset s).dbg = State.reset.dbg := rfl
@[simp] theorem applyReset_trace (s : State) : (applyReset s).trace = State.reset.trace := rfl
@[simp] theorem applyReset_host (s : State) : (applyReset s).host = s.host := rfl

/-! ### `retire`: charge, then publish -/

@[simp] theorem retire_rs (i : Instr) (start done : State) : (retire i start done).rs = done.rs := rfl
@[simp] theorem retire_pc (i : Instr) (start done : State) : (retire i start done).pc = done.pc := rfl
@[simp] theorem retire_acc (i : Instr) (start done : State) : (retire i start done).acc = done.acc := rfl
@[simp] theorem retire_mem (i : Instr) (start done : State) : (retire i start done).mem = done.mem := rfl
@[simp] theorem retire_tc (i : Instr) (start done : State) : (retire i start done).tc = done.tc + cost i := rfl
@[simp] theorem retire_ic (i : Instr) (start done : State) : (retire i start done).ic = done.ic + ioCost i := rfl
@[simp] theorem retire_fc (i : Instr) (start done : State) : (retire i start done).fc = done.fc := rfl
@[simp] theorem retire_fpc (i : Instr) (start done : State) : (retire i start done).fpc = done.fpc := rfl
@[simp] theorem retire_defined (i : Instr) (start done : State) : (retire i start done).defined = done.defined := rfl
@[simp] theorem retire_out (i : Instr) (start done : State) : (retire i start done).out = done.out := rfl
@[simp] theorem retire_wait (i : Instr) (start done : State) : (retire i start done).wait = none := rfl
@[simp] theorem retire_dbg (i : Instr) (start done : State) : (retire i start done).dbg = some (snapshotOf i start done) := rfl
@[simp] theorem retire_trace (i : Instr) (start done : State) : (retire i start done).trace = done.trace := rfl
@[simp] theorem retire_host (i : Instr) (start done : State) : (retire i start done).host = done.host := rfl

end Sys2Proof.Machine
end

