-- ==== Sys2Proof/Laws/Memory.lean ====
section
/-! SUPPORT. The laws of the data memory and of the defined-address set: what a read gives after a write, what is a member
after an insertion, and that every operation keeps the canonical form. -/

namespace Sys2Proof.Machine

theorem Memory.wfFrom_cons (lo a : Nat) (v : Word) (rest : Memory) :
    Memory.wfFrom lo ((a, v) :: rest) = true ↔
      lo ≤ a ∧ a < Config.addrLimit ∧ v ≠ Memory.unlisted ∧ Memory.wfFrom (a + 1) rest = true := by
  simp only [Memory.wfFrom, Bool.and_eq_true, decide_eq_true_eq]
  tauto

/-- An address below every listed one reads as an unlisted address. -/
theorem Memory.read_below (m : Memory) (a lo : Nat) (h : Memory.wfFrom lo m = true) (ha : a < lo) :
    Memory.read m a = Memory.unlisted := by
  induction m generalizing lo with
  | nil => rfl
  | cons p rest ih =>
    obtain ⟨b, w⟩ := p
    obtain ⟨hb, -, -, hr⟩ := (Memory.wfFrom_cons lo b w rest).1 h
    rw [Memory.read, if_neg (by omega)]
    exact ih (b + 1) hr (by omega)

/-- Reading the cell just written gives the value written. -/
theorem Memory.read_write_same (m : Memory) (a lo : Nat) (v : Word) (h : Memory.wfFrom lo m = true) :
    Memory.read (Memory.write m a v) a = v := by
  induction m generalizing lo with
  | nil => unfold Memory.write; split <;> simp_all [Memory.read]
  | cons p rest ih =>
    obtain ⟨b, w⟩ := p
    obtain ⟨-, -, -, hr⟩ := (Memory.wfFrom_cons lo b w rest).1 h
    unfold Memory.write
    by_cases hlt : a < b
    · by_cases hv : v = Memory.unlisted
      · rw [if_pos hlt, if_pos hv, Memory.read, if_neg (by omega), hv]
        exact Memory.read_below rest a (b + 1) hr (by omega)
      · rw [if_pos hlt, if_neg hv, Memory.read, if_pos rfl]
    · by_cases hab : a = b
      · by_cases hv : v = Memory.unlisted
        · rw [if_neg hlt, if_pos hab, if_pos hv, hv]
          exact Memory.read_below rest a (b + 1) hr (by omega)
        · rw [if_neg hlt, if_pos hab, if_neg hv, Memory.read, if_pos rfl]
      · rw [if_neg hlt, if_neg hab, Memory.read, if_neg hab]
        exact ih (b + 1) hr

/-- A write leaves every other cell as it was. -/
theorem Memory.read_write_other (m : Memory) (a x : Nat) (v : Word) (hx : x ≠ a) :
    Memory.read (Memory.write m a v) x = Memory.read m x := by
  induction m with
  | nil => unfold Memory.write; split <;> simp [Memory.read, hx]
  | cons p rest ih =>
    obtain ⟨b, w⟩ := p
    unfold Memory.write
    by_cases hlt : a < b
    · by_cases hv : v = Memory.unlisted
      · rw [if_pos hlt, if_pos hv]
      · rw [if_pos hlt, if_neg hv, Memory.read, if_neg hx]
    · by_cases hab : a = b
      · subst hab
        by_cases hv : v = Memory.unlisted
        · rw [if_neg hlt, if_pos rfl, if_pos hv, Memory.read, if_neg hx]
        · rw [if_neg hlt, if_pos rfl, if_neg hv, Memory.read, if_neg hx, Memory.read, if_neg hx]
      · rw [if_neg hlt, if_neg hab, Memory.read, Memory.read, ih]

/-- A lower bound of the listed addresses may be lowered. -/
theorem Memory.wfFrom_mono (m : Memory) (lo lo' : Nat) (h : Memory.wfFrom lo m = true) (hl : lo' ≤ lo) :
    Memory.wfFrom lo' m = true := by
  cases m with
  | nil => rfl
  | cons p rest =>
    obtain ⟨b, w⟩ := p
    obtain ⟨hb, hlim, hw, hr⟩ := (Memory.wfFrom_cons lo b w rest).1 h
    exact (Memory.wfFrom_cons lo' b w rest).2 ⟨by omega, hlim, hw, hr⟩

/-- A write inside the address space keeps the canonical form. -/
theorem Memory.wfFrom_write (m : Memory) (a lo : Nat) (v : Word) (h : Memory.wfFrom lo m = true) (hlo : lo ≤ a)
    (ha : a < Config.addrLimit) : Memory.wfFrom lo (Memory.write m a v) = true := by
  induction m generalizing lo with
  | nil =>
    unfold Memory.write
    split
    · rfl
    · exact (Memory.wfFrom_cons lo a v []).2 ⟨hlo, ha, ‹_›, rfl⟩
  | cons p rest ih =>
    obtain ⟨b, w⟩ := p
    obtain ⟨hb, hlim, hw, hr⟩ := (Memory.wfFrom_cons lo b w rest).1 h
    unfold Memory.write
    by_cases hlt : a < b
    · by_cases hv : v = Memory.unlisted
      · rw [if_pos hlt, if_pos hv]; exact h
      · rw [if_pos hlt, if_neg hv]
        exact (Memory.wfFrom_cons lo a v _).2 ⟨hlo, ha, hv, (Memory.wfFrom_cons (a + 1) b w rest).2 ⟨hlt, hlim, hw, hr⟩⟩
    · by_cases hab : a = b
      · by_cases hv : v = Memory.unlisted
        · rw [if_neg hlt, if_pos hab, if_pos hv]
          exact Memory.wfFrom_mono rest (b + 1) lo hr (by omega)
        · rw [if_neg hlt, if_pos hab, if_neg hv]
          exact (Memory.wfFrom_cons lo a v rest).2 ⟨hlo, ha, hv, hab ▸ hr⟩
      · rw [if_neg hlt, if_neg hab]
        exact (Memory.wfFrom_cons lo b w _).2 ⟨hb, hlim, hw, ih (b + 1) hr (by omega)⟩

/-- Membership after an insertion, for any list. -/
@[simp] theorem AddrSet.mem_insert (a x : Nat) (d : List Nat) : x ∈ AddrSet.insert a d ↔ x = a ∨ x ∈ d := by
  induction d with
  | nil => simp [AddrSet.insert]
  | cons b rest ih =>
    unfold AddrSet.insert
    split
    · simp
    · split
      · subst a; simp
      · simp only [List.mem_cons, ih]; tauto

theorem AddrSet.wfFrom_cons (lo a : Nat) (rest : List Nat) :
    AddrSet.wfFrom lo (a :: rest) = true ↔ lo ≤ a ∧ a < Config.addrLimit ∧ AddrSet.wfFrom (a + 1) rest = true := by
  simp only [AddrSet.wfFrom, Bool.and_eq_true, decide_eq_true_eq]
  tauto

/-- An insertion inside the address space keeps the ascending order. -/
theorem AddrSet.wfFrom_insert (d : List Nat) (a lo : Nat) (h : AddrSet.wfFrom lo d = true) (hlo : lo ≤ a)
    (ha : a < Config.addrLimit) : AddrSet.wfFrom lo (AddrSet.insert a d) = true := by
  induction d generalizing lo with
  | nil => exact (AddrSet.wfFrom_cons lo a []).2 ⟨hlo, ha, rfl⟩
  | cons b rest ih =>
    obtain ⟨hb, hlim, hr⟩ := (AddrSet.wfFrom_cons lo b rest).1 h
    unfold AddrSet.insert
    by_cases hlt : a < b
    · rw [if_pos hlt]
      exact (AddrSet.wfFrom_cons lo a _).2 ⟨hlo, ha, (AddrSet.wfFrom_cons (a + 1) b rest).2 ⟨hlt, hlim, hr⟩⟩
    · by_cases hab : a = b
      · rw [if_neg hlt, if_pos hab]; exact h
      · rw [if_neg hlt, if_neg hab]
        exact (AddrSet.wfFrom_cons lo b _).2 ⟨hb, hlim, ih (b + 1) hr (by omega)⟩

/-! ### Cells of a state: the accumulator and the data memory as one space -/

@[simp] theorem State.cell_zero (s : State) : s.cell 0 = s.acc := rfl

/-- A cell write is read back. -/
theorem State.cell_setCell_same (s : State) (a : Nat) (v : Word) (h : Memory.wf s.mem = true) :
    (s.setCell a v).cell a = v := by
  unfold State.cell
  by_cases ha : a = 0
  · simp [ha]
  · simp only [ha, if_false, State.setCell_mem]
    exact Memory.read_write_same s.mem a 1 v h

/-- A cell write leaves every other cell as it was. -/
theorem State.cell_setCell_other (s : State) (a x : Nat) (v : Word) (hx : x ≠ a) :
    (s.setCell a v).cell x = s.cell x := by
  unfold State.cell
  by_cases h0 : x = 0
  · subst h0; simp [hx.symm]
  · by_cases ha : a = 0
    · simp [h0, ha]
    · simp only [h0, ha, if_false, State.setCell_mem]
      exact Memory.read_write_other s.mem a x v hx

/-- A cell write inside the address space keeps the memory's canonical form. -/
theorem State.setCell_memory_wf (s : State) (a : Nat) (v : Word) (h : Memory.wf s.mem = true)
    (ha : a < Config.addrLimit) : Memory.wf (s.setCell a v).mem = true := by
  by_cases h0 : a = 0
  · simpa [h0] using h
  · simp only [State.setCell_mem, h0, if_false]
    exact Memory.wfFrom_write s.mem a 1 v h (by omega) ha

/-- The cells depend on the accumulator and the data memory alone. -/
theorem State.cell_congr (s t : State) (hacc : s.acc = t.acc) (hmem : s.mem = t.mem) (a : Nat) : s.cell a = t.cell a := by
  simp [State.cell, hacc, hmem]

/-- The reset memory is in canonical form. -/
theorem Memory.wf_reset : Memory.wf State.reset.mem = true := rfl

end Sys2Proof.Machine
end

