-- ==== Sys2Proof/Laws/Ops.lean ====
section
/-! SUPPORT. For each shared operation, one lemma that says everything it can answer, and one that says what it answers when the
other side is ready. Later proofs cite these instead of unfolding the operation. -/

namespace Sys2Proof.Machine

/-! ### The step in progress -/

@[simp] theorem requestsMade_append (x y : List Access) : requestsMade (x ++ y) = requestsMade x + requestsMade y := by
  induction x with
  | nil => simp [requestsMade]
  | cons a x ih => cases a <;> simp only [List.cons_append, requestsMade, ih] <;> omega

/-- What earlier looks at the step have left depends on the wait alone. -/
theorem State.acknowledged_congr {s t : State} (h : s.wait = t.wait) : s.acknowledged = t.acknowledged := by
  unfold State.acknowledged; rw [h]

theorem State.takenInput_congr {s t : State} (h : s.wait = t.wait) : s.takenInput = t.takenInput := by
  unfold State.takenInput; rw [h]

@[simp] theorem State.acknowledged_of_none {s : State} (h : s.wait = none) : s.acknowledged = 0 := by
  unfold State.acknowledged; rw [h]

@[simp] theorem State.takenInput_of_none {s : State} (h : s.wait = none) : s.takenInput = none := by
  unfold State.takenInput; rw [h]

/-- The accumulator needs no request. -/
@[simp] theorem State.granted_zero (s : State) : s.Granted 0 := .inl rfl

@[simp] theorem requestCount_nil : requestCount [] = 0 := rfl

@[simp] theorem requestCount_cons (a : Nat) (l : List Nat) :
    requestCount (a :: l) = (if a = 0 then 0 else 1) + requestCount l := by
  unfold requestCount
  by_cases h : a = 0 <;> simp [h, Nat.add_comm]

@[simp] theorem requestCount_append (x y : List Nat) : requestCount (x ++ y) = requestCount x + requestCount y := by
  unfold requestCount; simp

/-- In a working state `t` of a look at the step of `s`, after requests to the addresses `before`, the access to `a` is granted
exactly when the memory answers it with those before it. -/
theorem State.granted_iff {s t : State} {a : Nat} {before : List Nat} (hw : t.wait = s.wait)
    (hh : t.host.dmemAcks = s.host.dmemAcks) (ht : requestsMade t.trace = requestCount before) :
    t.Granted a ↔ a = 0 ∨ s.Answers (before ++ [a]) := by
  unfold State.Granted State.Answers
  rw [State.acknowledged_congr hw, hh, ht, requestCount_append, requestCount_cons, requestCount_nil]
  by_cases h : a = 0
  · simp [h]
  · simp only [h, false_or, if_false]; omega

/-! ### Memory access -/

/-- A read of a cell that answers goes on with the cell's value. -/
theorem memRead_answers {a : Nat} {s : State} {f : Word → State → StepEnd} (ha : a < Config.addrLimit) (hr : s.Granted a) :
    memRead a s f = f (s.cell a) ((s.define a).note (.read a (s.cell a))) := by
  rw [memRead, if_pos ha, if_pos hr]

/-- Everything `memRead` can answer. -/
theorem memRead_cases (a : Nat) (s : State) (f : Word → State → StepEnd) :
    (a < Config.addrLimit ∧ s.Granted a ∧ memRead a s f = f (s.cell a) ((s.define a).note (.read a (s.cell a)))) ∨
    (a < Config.addrLimit ∧ ¬ s.Granted a ∧ memRead a s f = .waits (.dataMemory (.read a)) s) ∨
    (Config.addrLimit ≤ a ∧ memRead a s f = .stops .addressOutsideSpace) := by
  by_cases ha : a < Config.addrLimit
  · by_cases hr : s.Granted a
    · exact .inl ⟨ha, hr, memRead_answers ha hr⟩
    · exact .inr (.inl ⟨ha, hr, by rw [memRead, if_pos ha, if_neg hr]⟩)
  · exact .inr (.inr ⟨by omega, by rw [memRead, if_neg ha]⟩)

/-- The accumulator always answers a read. -/
@[simp] theorem memRead_acc (s : State) (f : Word → State → StepEnd) :
    memRead 0 s f = f s.acc ((s.define 0).note (.read 0 s.acc)) := rfl

/-- A write of a cell that answers goes on with the cell written. -/
theorem memWrite_answers {a : Nat} {v : Word} {s : State} {f : State → StepEnd} (ha : a < Config.addrLimit)
    (hr : s.Granted a) : memWrite a v s f = f (((s.setCell a v).define a).note (.write a v)) := by
  rw [memWrite, if_pos ha, if_pos hr]

/-- Everything `memWrite` can answer. -/
theorem memWrite_cases (a : Nat) (v : Word) (s : State) (f : State → StepEnd) :
    (a < Config.addrLimit ∧ s.Granted a ∧ memWrite a v s f = f (((s.setCell a v).define a).note (.write a v))) ∨
    (a < Config.addrLimit ∧ ¬ s.Granted a ∧ memWrite a v s f = .waits (.dataMemory (.write a v)) s) ∨
    (Config.addrLimit ≤ a ∧ memWrite a v s f = .stops .addressOutsideSpace) := by
  by_cases ha : a < Config.addrLimit
  · by_cases hr : s.Granted a
    · exact .inl ⟨ha, hr, memWrite_answers ha hr⟩
    · exact .inr (.inl ⟨ha, hr, by rw [memWrite, if_pos ha, if_neg hr]⟩)
  · exact .inr (.inr ⟨by omega, by rw [memWrite, if_neg ha]⟩)

/-- The accumulator always answers a write. -/
@[simp] theorem memWrite_acc (v : Word) (s : State) (f : State → StepEnd) :
    memWrite 0 v s f = f (((s.setCell 0 v).define 0).note (.write 0 v)) := rfl

/-! ### Channels -/

/-- Where the next input value comes from. -/
theorem State.nextInput_eq_some {s : State} {v : Word} {rest : List Word} :
    s.nextInput = some (v, rest) ↔
      (s.takenInput = some v ∧ s.host.input = rest) ∨ (s.takenInput = none ∧ s.host.input = v :: rest) := by
  unfold State.nextInput
  cases s.takenInput <;> cases s.host.input <;> simp

/-- When there is no next input value. -/
theorem State.nextInput_eq_none {s : State} : s.nextInput = none ↔ s.takenInput = none ∧ s.host.input = [] := by
  unfold State.nextInput
  cases s.takenInput <;> cases s.host.input <;> simp

/-- Everything `inRead` can answer. -/
theorem inRead_cases (s : State) (f : Word → State → StepEnd) :
    (s.nextInput = none ∧ inRead s f = .waits .input s) ∨
    (∃ v rest, s.nextInput = some (v, rest) ∧ inRead s f = f v ((s.consumeInput rest).note (.input v))) := by
  unfold inRead
  cases s.nextInput with
  | none => exact .inl ⟨rfl, rfl⟩
  | some p => exact .inr ⟨p.1, p.2, rfl, rfl⟩

theorem inRead_some {s : State} {v : Word} {rest : List Word} (h : s.nextInput = some (v, rest))
    (f : Word → State → StepEnd) : inRead s f = f v ((s.consumeInput rest).note (.input v)) := by
  unfold inRead; rw [h]

theorem inRead_none {s : State} (h : s.nextInput = none) (f : Word → State → StepEnd) : inRead s f = .waits .input s := by
  unfold inRead; rw [h]

/-- Everything `outWrite` can answer. -/
theorem outWrite_cases (v : Word) (s : State) (f : State → StepEnd) :
    (s.host.sinkReady = true ∧ outWrite v s f = f ((s.emit v).note (.output v))) ∨
    (s.host.sinkReady = false ∧ outWrite v s f = .waits (.output v) s) := by
  unfold outWrite
  cases s.host.sinkReady <;> simp

/-! ### Operands -/

/-- A word that is not negative names an address of the data memory. -/
theorem toNat_lt_addrLimit {v : Word} (h : 0 ≤ v.toInt) : v.toNat < Config.addrLimit := by
  rw [BitVec.toInt_eq_toNat_cond] at h
  unfold Config.addrLimit
  split at h <;> omega

theorem checkedAddress_nonneg {v : Word} (h : 0 ≤ v.toInt) (f : Nat → StepEnd) : checkedAddress v f = f v.toNat := by
  rw [checkedAddress, if_neg (by omega)]

theorem checkedAddress_neg {v : Word} (h : v.toInt < 0) (f : Nat → StepEnd) :
    checkedAddress v f = .raises .negativeAddress := by
  rw [checkedAddress, if_pos h]

/-- Everything the address checker can answer: an address inside the space, or the fault. -/
theorem checkedAddress_cases (v : Word) (f : Nat → StepEnd) :
    (0 ≤ v.toInt ∧ v.toNat < Config.addrLimit ∧ checkedAddress v f = f v.toNat) ∨
    (v.toInt < 0 ∧ checkedAddress v f = .raises .negativeAddress) := by
  by_cases h : v.toInt < 0
  · exact .inr ⟨h, checkedAddress_neg h f⟩
  · exact .inl ⟨by omega, toNat_lt_addrLimit (by omega), checkedAddress_nonneg (by omega) f⟩

/-- Everything an indirect operand can answer. -/
theorem indirectOperand_cases (k : Word) (s : State) (f : Nat → State → StepEnd) :
    (k.toInt < 0 ∧ indirectOperand k s f = .raises .negativeAddress) ∨
    (0 ≤ k.toInt ∧ ¬ s.Granted k.toNat ∧ indirectOperand k s f = .waits (.dataMemory (.read k.toNat)) s) ∨
    (0 ≤ k.toInt ∧ s.Granted k.toNat ∧ (s.cell k.toNat).toInt < 0 ∧ indirectOperand k s f = .raises .negativeAddress) ∨
    (0 ≤ k.toInt ∧ s.Granted k.toNat ∧ 0 ≤ (s.cell k.toNat).toInt ∧
      indirectOperand k s f =
        f (s.cell k.toNat).toNat ((s.define k.toNat).note (.read k.toNat (s.cell k.toNat)))) := by
  unfold indirectOperand addressOperand
  rcases checkedAddress_cases k (fun a => memRead a s fun e s => checkedAddress e fun ea => f ea s) with ⟨hk, hlt, e1⟩ | ⟨hk, e1⟩
  · rw [e1]
    by_cases hr : s.Granted k.toNat
    · rw [memRead_answers hlt hr]
      rcases checkedAddress_cases (s.cell k.toNat)
          (fun ea => f ea ((s.define k.toNat).note (.read k.toNat (s.cell k.toNat)))) with ⟨he, -, e2⟩ | ⟨he, e2⟩
      · exact .inr (.inr (.inr ⟨hk, hr, he, e2⟩))
      · exact .inr (.inr (.inl ⟨hk, hr, he, e2⟩))
    · exact .inr (.inl ⟨hk, hr, by rw [memRead, if_pos hlt, if_neg hr]⟩)
  · exact .inl ⟨hk, e1⟩

/-! ### The end of a step -/

/-- Everything a settled step can answer as a next state. -/
theorem settle_next {i : Instr} {s t : State} {e : StepEnd} (h : settle i s e = .next t) :
    (∃ done, e = .completes done ∧ t = retire i s done) ∨ (e = .halts ∧ t = haltRun s) ∨
    (∃ kind, e = .raises kind ∧ t = raiseFatal kind s) ∨
    (∃ reason mid, e = .waits reason mid ∧ t = holdWait i reason s mid) := by
  cases e with
  | completes done => exact .inl ⟨done, rfl, (Host.Outcome.next.inj h).symm⟩
  | halts => exact .inr (.inl ⟨rfl, (Host.Outcome.next.inj h).symm⟩)
  | raises kind => exact .inr (.inr (.inl ⟨kind, rfl, (Host.Outcome.next.inj h).symm⟩))
  | waits reason mid => exact .inr (.inr (.inr ⟨reason, mid, rfl, (Host.Outcome.next.inj h).symm⟩))
  | stops reason => exact absurd h (by simp [settle])

@[simp] theorem settle_completes (i : Instr) (s done : State) : settle i s (.completes done) = .next (retire i s done) := rfl

@[simp] theorem settle_halts (i : Instr) (s : State) : settle i s .halts = .next (haltRun s) := rfl

@[simp] theorem settle_raises (i : Instr) (s : State) (kind : FatalKind) :
    settle i s (.raises kind) = .next (raiseFatal kind s) := rfl

@[simp] theorem settle_waits (i : Instr) (s mid : State) (reason : WaitReason) :
    settle i s (.waits reason mid) = .next (holdWait i reason s mid) := rfl

/-- The working state starts with the cells of the state. -/
@[simp] theorem State.cell_fresh (s : State) (a : Nat) : s.fresh.cell a = s.cell a := rfl

@[simp] theorem State.cell_define (s : State) (a x : Nat) : (s.define a).cell x = s.cell x := rfl

@[simp] theorem State.cell_note (s : State) (y : Access) (x : Nat) : (s.note y).cell x = s.cell x := rfl

@[simp] theorem State.cell_consumeInput (s : State) (rest : List Word) (x : Nat) :
    (s.consumeInput rest).cell x = s.cell x := rfl

@[simp] theorem State.cell_emit (s : State) (v : Word) (x : Nat) : (s.emit v).cell x = s.cell x := rfl

@[simp] theorem State.cell_retire (i : Instr) (s done : State) (x : Nat) : (retire i s done).cell x = done.cell x := rfl

end Sys2Proof.Machine
end

