-- ==== Sys2Proof/Laws/PerInstr.lean ====
section
/-! SUPPORT. The family of per-instruction lemmas about the encoding: the encoder puts the instruction's opcode number and its
operand in the two fields of R70, and the opcode number is one of the 18 of R74. -/

namespace Sys2Proof.Laws.EncodedFields

/-- The fields of the encoded word, and that its opcode is a legal one. -/
def Statement (i : Instr) : Prop :=
  opcodeField (encode i) = i.opcode ∧ operandField (encode i) = i.operand ∧ i.opcode.toNat ≤ 0x11

theorem of_opcode_le (i : Instr) (h : i.opcode.toNat ≤ 0x11) : Statement i :=
  ⟨opcodeField_append i.opcode i.operand, operandField_append i.opcode i.operand, h⟩

theorem get (k : Word) : Statement (.get k) := of_opcode_le _ (Nat.le_of_ble_eq_true rfl)
theorem put (k : Word) : Statement (.put k) := of_opcode_le _ (Nat.le_of_ble_eq_true rfl)
theorem load (k : Word) : Statement (.load k) := of_opcode_le _ (Nat.le_of_ble_eq_true rfl)
theorem store (k : Word) : Statement (.store k) := of_opcode_le _ (Nat.le_of_ble_eq_true rfl)
theorem loadi (k : Word) : Statement (.loadi k) := of_opcode_le _ (Nat.le_of_ble_eq_true rfl)
theorem storei (k : Word) : Statement (.storei k) := of_opcode_le _ (Nat.le_of_ble_eq_true rfl)
theorem add (k : Word) : Statement (.add k) := of_opcode_le _ (Nat.le_of_ble_eq_true rfl)
theorem sub (k : Word) : Statement (.sub k) := of_opcode_le _ (Nat.le_of_ble_eq_true rfl)
theorem addi (k : Word) : Statement (.addi k) := of_opcode_le _ (Nat.le_of_ble_eq_true rfl)
theorem subi (k : Word) : Statement (.subi k) := of_opcode_le _ (Nat.le_of_ble_eq_true rfl)
theorem set (k : Word) : Statement (.set k) := of_opcode_le _ (Nat.le_of_ble_eq_true rfl)
theorem half (k : Word) : Statement (.half k) := of_opcode_le _ (Nat.le_of_ble_eq_true rfl)
theorem jump (k : Word) : Statement (.jump k) := of_opcode_le _ (Nat.le_of_ble_eq_true rfl)
theorem jpos (k : Word) : Statement (.jpos k) := of_opcode_le _ (Nat.le_of_ble_eq_true rfl)
theorem jzero (k : Word) : Statement (.jzero k) := of_opcode_le _ (Nat.le_of_ble_eq_true rfl)
theorem jneg (k : Word) : Statement (.jneg k) := of_opcode_le _ (Nat.le_of_ble_eq_true rfl)
theorem rtrn (k : Word) : Statement (.rtrn k) := of_opcode_le _ (Nat.le_of_ble_eq_true rfl)
theorem halt (k : Word) : Statement (.halt k) := of_opcode_le _ (Nat.le_of_ble_eq_true rfl)

end Sys2Proof.Laws.EncodedFields
end

