-- ==== Sys2Proof/Laws/Step.lean ====
section
/-! SUPPORT. What one step can do, said once: the cases of `perform`, of the unknown-opcode step and of `step`, and what
`loadAtFetch` loads. -/

namespace Sys2Proof.Machine

/-- Everything a performed instruction can answer as a next state. -/
theorem perform_next {i : Instr} {s t : State} {work : State → StepEnd} (h : perform i s work = .next t) :
    (∃ done, work s.fresh = .completes done ∧ t = retire i s done) ∨ (work s.fresh = .halts ∧ t = haltRun s) ∨
    (∃ kind, work s.fresh = .raises kind ∧ t = raiseFatal kind s) ∨
    (∃ reason mid, work s.fresh = .waits reason mid ∧ t = holdWait i reason s mid) :=
  settle_next h

/-- The two ends of the step of an unknown opcode (R76, R186). -/
theorem execUnknown_cases (k : Word) (s : State) :
    (k.toInt < 0 ∧ execUnknown k s = .next (raiseFatal .negativeAddress s)) ∨
    (0 ≤ k.toInt ∧ execUnknown k s = .next (raiseFatal .unknownOpcode s)) := by
  unfold execUnknown
  by_cases h : k.toInt < 0
  · exact .inl ⟨h, by rw [if_pos h]⟩
  · exact .inr ⟨by omega, by rw [if_neg h]⟩

/-- A fetched word stands at the pc, which is in range. -/
theorem fetch_eq_some {s : State} {w : InsnWord} (h : fetch s = some w) :
    0 ≤ s.pc.toInt ∧ s.pc.toNat < s.host.program.length ∧ s.host.program[s.pc.toNat]? = some w := by
  unfold fetch at h
  by_cases hpc : s.pc.toInt < 0
  · rw [if_pos hpc] at h; exact absurd h (by simp)
  · rw [if_neg hpc] at h
    exact ⟨by omega, (List.getElem?_eq_some_iff.1 h).1, h⟩

/-- The word a fetch in range finds. -/
theorem fetch_of_getElem? {s : State} {w : InsnWord} (hpc : 0 ≤ s.pc.toInt)
    (h : s.host.program[s.pc.toNat]? = some w) : fetch s = some w := by
  unfold fetch; rw [if_neg (by omega), h]

/-- Everything a step can answer as a next state (R90, R91, R210). -/
theorem step_next {s t : State} (h : step s = .next t) :
    (s.host.rst = true ∧ t = applyReset s) ∨
    (s.host.rst = false ∧ s.Ended ∧ t = s) ∨
    (s.host.rst = false ∧ s.rs = .running ∧ s.host.program.length ≤ Config.progLenMax ∧
      ((fetch s = none ∧ t = raiseFatal .invalidProgramCounter s) ∨
       (∃ w i, fetch s = some w ∧ decode w = .ok i ∧ exec i s = .next t) ∨
       (∃ w op k, fetch s = some w ∧ decode w = .error (.unknownOpcode op k) ∧ execUnknown k s = .next t))) := by
  unfold step engineStep at h
  cases hr : s.host.rst with
  | true => rw [if_pos hr] at h; exact .inl ⟨rfl, (Host.Outcome.next.inj h).symm⟩
  | false =>
    rw [if_neg (by simp [hr])] at h
    cases hs : s.rs with
    | halted => rw [hs] at h; exact .inr (.inl ⟨rfl, .inl hs, (Host.Outcome.next.inj h).symm⟩)
    | fatal => rw [hs] at h; exact .inr (.inl ⟨rfl, .inr hs, (Host.Outcome.next.inj h).symm⟩)
    | running =>
      rw [hs] at h
      simp only [runStep] at h
      by_cases hl : s.host.program.length ≤ Config.progLenMax
      · rw [if_pos hl] at h
        refine .inr (.inr ⟨rfl, rfl, hl, ?_⟩)
        cases hf : fetch s with
        | none => rw [hf] at h; exact .inl ⟨rfl, (Host.Outcome.next.inj h).symm⟩
        | some w =>
          rw [hf] at h
          simp only [runWord] at h
          cases hd : decode w with
          | ok i => rw [hd] at h; exact .inr (.inl ⟨w, i, rfl, hd, h⟩)
          | error e => cases e with | unknownOpcode op k => rw [hd] at h; exact .inr (.inr ⟨w, op, k, rfl, hd, h⟩)
      · rw [if_neg hl] at h; exact absurd h (by simp)

/-- A placed word stands at its index. -/
theorem placeWord_getElem? (n : Nat) (w : InsnWord) (p : List InsnWord) : (placeWord n w p)[n]? = some w := by
  unfold placeWord
  rw [List.getElem?_set_self]
  rw [List.length_append, List.length_replicate]
  omega

/-- Placing a word lengthens the store as far as its index, and no further. -/
theorem placeWord_length (n : Nat) (w : InsnWord) (p : List InsnWord) : (placeWord n w p).length = max p.length (n + 1) := by
  unfold placeWord
  rw [List.length_set, List.length_append, List.length_replicate]
  omega

/-- The state in which the host has loaded `w` fetches it, and its program fits the store. -/
theorem fetch_loadAtFetch (w : InsnWord) (s : State) :
    fetch (loadAtFetch w s) = some w ∧ (loadAtFetch w s).host.program.length ≤ Config.progLenMax ∧
      (loadAtFetch w s).rs = .running ∧ (loadAtFetch w s).host.rst = false := by
  refine ⟨?_, ?_, rfl, rfl⟩
  · unfold loadAtFetch
    by_cases h : 0 ≤ s.pc.toInt ∧ s.pc.toNat < Config.progLenMax
    · simp only [h, and_self, if_true]
      exact fetch_of_getElem? h.1 (placeWord_getElem? _ _ _)
    · simp only [h, if_false]
      exact fetch_of_getElem? (show 0 ≤ (0 : Pc).toInt by decide) (placeWord_getElem? _ _ _)
  · unfold loadAtFetch
    simp only [placeWord_length]
    refine max_le ?_ ?_
    · split
      · assumption
      · exact Nat.zero_le _
    · split
      · exact (by rename_i h; exact h.2)
      · decide

end Sys2Proof.Machine
end

