-- ==== Sys2Proof/Tests/Slice0.lean ====
section
/-! SUPPORT. The model's own tests: the checks of WellFormed on ill-formed terms, the words of R82 and R75 through the
decoder, single steps from spec/95_test_vectors.md (each named by its vector), and one witness for the hypotheses of each
obligation that has any. Expected values are the spec's. -/

namespace Sys2Proof.Tests

open Sys2Proof.Machine

/- WellFormed: every check refuses an ill-formed term. -/

theorem test_half_with_an_operand_is_no_assembler_form : (Instr.half 5).assemblerForm = false := by decide
theorem test_halt_with_an_operand_is_no_assembler_form : (Instr.halt (-1)).assemblerForm = false := by decide
theorem test_negative_operands_fail_the_sign_check :
    ([.get (-1), .put (-1), .load (-1), .store (-1), .loadi (-1), .storei (-1), .add (-1), .sub (-1), .addi (-1), .subi (-1),
      .half (-1), .rtrn (-1)] : List Instr).all (fun i => i.operandSignOk == false) = true := by decide
theorem test_the_exempt_five_and_halt_pass_the_sign_check :
    ([.set (-1), .jump (-1), .jpos (-1), .jzero (-1), .jneg (-1), .halt (-1)] : List Instr).all Instr.operandSignOk = true := by
  decide
theorem test_ill_formed_terms_are_refused :
    ([.half 5, .halt (-1), .load (-1), .half (-1)] : List Instr).all (fun i => i.wellFormed == false) = true := by decide
theorem test_well_formed_terms_pass : ([.half 0, .halt 0, .load 7, .set (-5)] : List Instr).all Instr.wellFormed = true := by
  decide

/- Decoding: the words of R82, one per constructor and more. -/

/-- What the decoder reads, none where it rejects. -/
def decoded (w : InsnWord) : Option Instr :=
  match decode w with
  | .ok i => some i
  | .error _ => none

theorem test_decode_get : decoded 0x00_0000000000000001 = some (.get 1) := by decide
theorem test_decode_put : decoded 0x01_0000000000000000 = some (.put 0) := by decide
theorem test_decode_load : decoded 0x02_FFFFFFFFFFFFFFFF = some (.load (-1)) := by decide
theorem test_decode_store : decoded 0x03_0000000000000001 = some (.store 1) := by decide
theorem test_decode_loadi : decoded 0x04_0000000000000002 = some (.loadi 2) := by decide
theorem test_decode_storei : decoded 0x05_0000000000000002 = some (.storei 2) := by decide
theorem test_decode_add : decoded 0x06_0000000000000001 = some (.add 1) := by decide
theorem test_decode_sub : decoded 0x07_0000000000000002 = some (.sub 2) := by decide
theorem test_decode_addi : decoded 0x08_0000000000000003 = some (.addi 3) := by decide
theorem test_decode_subi : decoded 0x09_0000000000000003 = some (.subi 3) := by decide
theorem test_decode_set : decoded 0x0A_FFFFFFFFFFFFFFFB = some (.set (-5)) := by decide
theorem test_decode_half : decoded 0x0B_0000000000000000 = some (.half 0) := by decide
theorem test_decode_jump : decoded 0x0C_FFFFFFFFFFFFFFF8 = some (.jump (-8)) := by decide
theorem test_decode_jpos : decoded 0x0D_0000000000000002 = some (.jpos 2) := by decide
theorem test_decode_jzero : decoded 0x0E_0000000000000008 = some (.jzero 8) := by decide
theorem test_decode_jneg : decoded 0x0F_0000000000000003 = some (.jneg 3) := by decide
theorem test_decode_rtrn : decoded 0x10_0000000000000009 = some (.rtrn 9) := by decide
theorem test_decode_halt : decoded 0x11_0000000000000000 = some (.halt 0) := by decide
theorem test_decode_rejects_the_first_illegal_opcode :
    decode 0x12_0000000000000003 = .error (.unknownOpcode 0x12 3) := by rfl
theorem test_decode_rejects_the_last_illegal_opcode :
    decode 0xFF_FFFFFFFFFFFFFFFF = .error (.unknownOpcode 0xFF (-1)) := by rfl
theorem test_table_word_halt : decodeTableWord 72 0x110000000000000005 = some (.halt 5) := by decide
theorem test_table_word_illegal : decodeTableWord 72 0x120000000000000005 = none := by decide

/- Single steps. -/

/-- The next state of an outcome. -/
def next? : StepOutcome → Option State
  | .next s => some s
  | .fault _ => none
  | .refused _ => none

/-- Part 2's start: a Running machine with these cells, `PROG_LEN` 5, its memory and its sink answering. -/
def start (pc : Pc) (acc : Word) (mem : Memory) : State :=
  { State.reset with
    pc := pc
    acc := acc
    mem := mem
    host := { HostSide.idle with program := List.replicate 5 haltWord } }

/-- The same with input values offered. -/
def startIn (input : List Word) (acc : Word) : State :=
  { start 0 acc [] with host := { (start 0 acc []).host with input := input } }

/-- The state with `w` in the program store at the pc. -/
def place (w : InsnWord) (s : State) : State := hostLoad (s.host.program.set s.pc.toNat w) s

/-- The state after one step on `w`. -/
def after (w : InsnWord) (s : State) : Option State := next? (step (place w s))

/-- The accumulator, the pc and the total cost of the state after one step on `w`. -/
def core3 (w : InsnWord) (s : State) : Option (Word × Pc × Nat) := (after w s).map fun t => (t.acc, t.pc, t.tc)

/-- The fault record of the state after one step on `w`: class, fault pc, and the cost and output charged. -/
def faultOf (w : InsnWord) (s : State) : Option (RunState × Option FatalKind × Pc × Nat × List Word) :=
  (after w s).map fun t => (t.rs, t.fc, t.fpc, t.tc, t.out)

theorem test_IO1_get : (after 0x00_0000000000000005 (startIn [7] 0)).map (fun t => (t.mem, t.pc, t.tc, t.ic, t.host.input)) =
    some ([(5, 7)], 1, 100, 100, []) := by decide
theorem test_IO3_get_waits : (after 0x00_0000000000000001 (startIn [] 0)).map (fun t => (t.rs, t.pc, t.tc, t.ioWait)) =
    some (.running, 0, 0, true) := by decide
theorem test_IO4_put : (after 0x01_0000000000000003 (start 0 0 [(3, -4)])).map (fun t => (t.out, t.mem, t.tc, t.ic)) =
    some ([-4], [(3, -4)], 100, 100) := by decide
theorem test_IO5_put_unwritten : (after 0x01_0000000000000008 (start 0 0 [])).map (fun t => (t.out, t.defined)) =
    some ([0], [8]) := by decide
theorem test_LS1_load : core3 0x02_0000000000000004 (start 0 1 [(4, 11)]) = some (11, 1, 10) := by decide
theorem test_LS3_load_top : core3 0x02_7FFFFFFFFFFFFFFF (start 0 5 []) = some (0, 1, 10) := by decide
theorem test_LS4_store : (after 0x03_0000000000000006 (start 0 (-2) [])).map (fun t => (t.mem, t.acc, t.tc)) =
    some ([(6, -2)], -2, 10) := by decide
theorem test_LS6_store_negative : faultOf 0x03_FFFFFFFFFFFFFFFB (start 0 9 []) =
    some (.fatal, some .negativeAddress, 0, 0, []) := by decide
theorem test_LS7_loadi : core3 0x04_0000000000000001 (start 0 0 [(1, 7), (7, 13)]) = some (13, 1, 20) := by decide
theorem test_LS10_loadi_negative_pointer : faultOf 0x04_0000000000000001 (start 0 8 [(1, -3)]) =
    some (.fatal, some .negativeAddress, 0, 0, []) := by decide
theorem test_LS12_storei_through_acc : (after 0x05_0000000000000000 (start 0 5 [])).map (fun t => (t.mem, t.acc, t.tc)) =
    some ([(5, 5)], 5, 20) := by decide
theorem test_LS13_storei_own_pointer : (after 0x05_0000000000000001 (start 0 5 [(1, 1)])).map (fun t => (t.mem, t.tc)) =
    some ([(1, 5)], 20) := by decide
theorem test_AR1_add : core3 0x06_0000000000000001 (start 0 2 [(1, 3)]) = some (5, 1, 10) := by decide
theorem test_AR3_add_wraps : core3 0x06_0000000000000001 (start 0 0x7FFFFFFFFFFFFFFF [(1, 1)]) =
    some (0x8000000000000000, 1, 10) := by decide
theorem test_AR4_sub : core3 0x07_0000000000000001 (start 0 2 [(1, 3)]) = some (-1, 1, 10) := by decide
theorem test_AR6_sub_wraps : core3 0x07_0000000000000001 (start 0 0x8000000000000000 [(1, 1)]) =
    some (0x7FFFFFFFFFFFFFFF, 1, 10) := by decide
theorem test_AR7_addi : core3 0x08_0000000000000001 (start 0 1 [(1, 4), (4, 10)]) = some (11, 1, 20) := by decide
theorem test_AR8_addi_of_acc : core3 0x08_0000000000000001 (start 0 6 []) = some (12, 1, 20) := by decide
theorem test_AR10_subi : core3 0x09_0000000000000001 (start 0 1 [(1, 4), (4, 10)]) = some (-9, 1, 12) := by decide
theorem test_AR12_subi_negative : faultOf 0x09_FFFFFFFFFFFFFFFF (start 0 1 []) =
    some (.fatal, some .negativeAddress, 0, 0, []) := by decide
theorem test_AR13_set : core3 0x0A_FFFFFFFFFFFFFFF9 (start 0 3 []) = some (-7, 1, 50) := by decide
theorem test_AR16_half_of_minus_one : core3 0x0B_0000000000000000 (start 0 (-1) []) = some (-1, 1, 5) := by decide
theorem test_AR20_half_negative_field : faultOf 0x0B_FFFFFFFFFFFFFFFF (start 0 6 []) =
    some (.fatal, some .negativeAddress, 0, 0, []) := by decide
theorem test_J1_jump_back : core3 0x0C_FFFFFFFFFFFFFFFE (start 3 0 []) = some (0, 1, 1) := by decide
theorem test_J3_jump_below_zero : core3 0x0C_FFFFFFFFFFFFFFFC (start 3 0 []) = some (0, -1, 1) := by decide
theorem test_J4_jpos_taken : core3 0x0D_0000000000000002 (start 1 1 []) = some (1, 3, 1) := by decide
theorem test_J5_jpos_of_zero : core3 0x0D_0000000000000002 (start 1 0 []) = some (0, 2, 1) := by decide
theorem test_J7_jzero_taken : core3 0x0E_FFFFFFFFFFFFFFFF (start 1 0 []) = some (0, 0, 1) := by decide
theorem test_J8_jzero_not_taken : core3 0x0E_FFFFFFFFFFFFFFFF (start 1 3 []) = some (3, 2, 1) := by decide
theorem test_J9_jneg_taken : core3 0x0F_0000000000000003 (start 1 (-5) []) = some (-5, 4, 1) := by decide
theorem test_J10_jneg_of_zero : core3 0x0F_0000000000000003 (start 1 0 []) = some (0, 2, 1) := by decide
theorem test_J12_rtrn : core3 0x10_0000000000000002 (start 0 0 [(2, 4)]) = some (0, 4, 10) := by decide
theorem test_J15_rtrn_negative_target : core3 0x10_0000000000000002 (start 0 0 [(2, -1)]) = some (0, -1, 10) := by decide
theorem test_J17_halt_negative_field : (after 0x11_FFFFFFFFFFFFFFF7 (start 0 1 [])).map (fun t => (t.rs, t.pc, t.tc, t.fc)) =
    some (.halted, 0, 0, none) := by decide
theorem test_SQ1_empty_program : (next? (step State.reset)).map (fun t => (t.rs, t.fc, t.fpc, t.tc)) =
    some (.fatal, some .invalidProgramCounter, 0, 0) := by decide
theorem test_SQ3_unknown_opcode : faultOf 0x12_0000000000000003 (start 0 0 []) =
    some (.fatal, some .unknownOpcode, 0, 0, []) := by decide
theorem test_SQ4_sign_before_opcode : faultOf 0xFF_FFFFFFFFFFFFFFFF (start 0 0 []) =
    some (.fatal, some .negativeAddress, 0, 0, []) := by decide
theorem test_with_fetch_word : (next? (step (State.reset.withFetchWord 72 0x0A0000000000000003))).map
    (fun t => (t.acc, t.pc, t.tc)) = some (3, 1, 50) := by decide

/- Witnesses: for each obligation with hypotheses, a concrete state and operands that meet all of them together, clause by
clause, at the ends of the ranges. -/

/-- The word `w` at the pc of a Running machine with `PROG_LEN` 5. -/
def at_ (w : InsnWord) (pc : Pc) (acc : Word) (mem : Memory) : State := place w (start pc acc mem)

/-- The largest operand. -/
def top : Word := 0x7FFFFFFFFFFFFFFF

/-- The data memory acknowledges nothing. -/
def noAck (s : State) : State := hostMemory 0 s

/-- A step of `i` in progress that has completed these accesses, at a memory that acknowledges nothing now. -/
def resumed (i : Instr) (reason : WaitReason) (done : List Access) (s : State) : State :=
  { noAck s with wait := some { instr := i, reason := reason, done := done } }

/-- A `LOADI k` that has read its pointer 7 and waits on the cell it names. -/
def loadiOnItsCell (k : Word) : State :=
  resumed (.loadi k) (.dataMemory (.read 7)) [.read k.toNat 7] (place (encode (.loadi k)) (start 0 4 [(k.toNat, 7)]))

/-- A `GET 5` that has taken 7 and waits on its memory write. -/
def getOnItsWrite : State := resumed (.get 5) (.dataMemory (.write 5 7)) [.input 7] (place 0x00_0000000000000005 (startIn [8] 0))

/- The step in progress: each request keeps its own acknowledgement (R58), and what the ports show. -/

/-- What a state that waits shows: the I/O wait and the three ports of a wait. -/
structure WaitView where
  ioWait : Bool
  inReady : Bool
  outOffered : Option Word
  dmemPending : Option DmemRequest
deriving DecidableEq, Repr

/-- What `s` shows. -/
def waitView (s : State) : WaitView := ⟨s.ioWait, inReadyPort s, outOfferedPort s, dmemPendingPort s⟩

theorem test_loadi_with_one_acknowledgement_waits_on_its_second_request :
    (after 0x04_0000000000000001 (hostMemory 1 (start 0 0 [(1, 7), (7, 13)]))).map (fun t => (waitView t, t.wait)) =
    some (⟨false, false, none, some (.read 7)⟩, some ⟨.loadi 1, .dataMemory (.read 7), [.read 1 7]⟩) := by decide
theorem test_loadi_in_progress_asks_only_for_its_second_request :
    (next? (step (hostMemory 1 (loadiOnItsCell 1)))).map (fun t => (t.acc, t.pc, t.tc, t.wait)) = some (0, 1, 20, none) := by
  decide
theorem test_put_waiting_on_its_read_holds_the_io_wait :
    (after 0x01_0000000000000003 (noAck (start 0 0 [(3, -4)]))).map waitView =
    some ⟨true, false, none, some (.read 3)⟩ := by decide
theorem test_put_waiting_on_the_sink_asks_no_second_acknowledgement :
    (next? (step (resumed (.put 3) (.output (-4)) [.read 3 (-4)] (place 0x01_0000000000000003 (start 0 0 [(3, -4)]))))).map
      (fun t => (t.out, t.tc, t.wait)) = some ([-4], 100, none) := by decide
theorem test_get_waiting_on_its_write_has_taken_one_value :
    (after 0x00_0000000000000005 (noAck (startIn [7, 8] 0))).map (fun t => (waitView t, t.takenInput, t.host.input)) =
    some (⟨false, false, none, some (.write 5 7)⟩, some 7, [8]) := by decide
theorem test_get_in_progress_takes_no_second_value :
    (next? (step (hostMemory 1 getOnItsWrite))).map (fun t => (t.mem, t.tc, t.host.input)) = some ([(5, 7)], 100, [8]) := by decide
theorem test_no_request_while_reset_is_asserted :
    ([getOnItsWrite, loadiOnItsCell 1, resumed (.put 3) (.output (-4)) [.read 3 (-4)] (start 0 0 [(3, -4)]),
      resumed (.get 1) .input [] (startIn [] 0)] : List State).all (fun s =>
      !inReadyPort (hostReset true s) && (outOfferedPort (hostReset true s)).isNone &&
      (dmemPendingPort (hostReset true s)).isNone) = true := by decide

/-- The conditions under which a step is that of the word at the pc. -/
abbrev Fetches (s : State) (w : InsnWord) : Prop :=
  s.host.rst = false ∧ s.rs = .running ∧ s.host.program.length ≤ Config.progLenMax ∧ 0 ≤ s.pc.toInt ∧
    s.host.program[s.pc.toNat]? = some w

theorem test_witness_DecoderIsTotalAndExact :
    (opcodeField 0x00_0000000000000000).toNat ≤ 0x11 ∧ (opcodeField 0x11_FFFFFFFFFFFFFFFF).toNat ≤ 0x11 ∧
    0x11 < (opcodeField 0x12_0000000000000000).toNat ∧ 0x11 < (opcodeField 0xFF_FFFFFFFFFFFFFFFF).toNat := by decide

theorem test_witness_OpcodeMapIsTheTable :
    (opcodeField 0x11_0000000000000000 = opcodeField 0x11_FFFFFFFFFFFFFFFF ∧
      decode 0x11_0000000000000000 = .ok (.halt 0)) ∧
    (opcodeField 0x12_0000000000000000 = opcodeField 0x12_FFFFFFFFFFFFFFFF ∧
      decode 0x12_0000000000000000 = .error (.unknownOpcode 0x12 0)) := ⟨⟨rfl, rfl⟩, ⟨rfl, rfl⟩⟩

theorem test_witness_StepRunsTheDecodedInstruction :
    (Fetches (at_ 0x0A_FFFFFFFFFFFFFFFB 0 0 []) 0x0A_FFFFFFFFFFFFFFFB ∧ decode 0x0A_FFFFFFFFFFFFFFFB = .ok (.set (-5))) ∧
    (Fetches (at_ 0x02_7FFFFFFFFFFFFFFF 4 0 []) 0x02_7FFFFFFFFFFFFFFF ∧ decode 0x02_7FFFFFFFFFFFFFFF = .ok (.load top)) :=
  ⟨⟨by decide, rfl⟩, ⟨by decide, rfl⟩⟩

theorem test_witness_HeldWhenNotRunning :
    ({ start 2 3 [] with rs := .halted }.host.rst = false ∧ { start 2 3 [] with rs := .halted }.Ended) ∧
    ({ start 2 3 [] with rs := .fatal }.host.rst = false ∧ { start 2 3 [] with rs := .fatal }.Ended) := by decide

theorem test_witness_FetchRangeCheck :
    ((start (-1) 0 []).host.rst = false ∧ (start (-1) 0 []).rs = .running ∧
      (start (-1) 0 []).host.program.length ≤ Config.progLenMax ∧ (start (-1) 0 []).pc.toInt < 0) ∧
    ((start 5 0 []).host.rst = false ∧ (start 5 0 []).rs = .running ∧
      (start 5 0 []).host.program.length ≤ Config.progLenMax ∧
      ((start 5 0 []).host.program.length : Int) ≤ (start 5 0 []).pc.toInt) ∧
    (0 ≤ (start 0 0 []).pc.toInt ∧ (start 0 0 []).pc.toInt < ((start 0 0 []).host.program.length : Int)) ∧
    (0 ≤ (start 4 0 []).pc.toInt ∧ (start 4 0 []).pc.toInt < ((start 4 0 []).host.program.length : Int)) := by decide

theorem test_witness_OperandSignCheck :
    (Fetches (at_ 0x0B_FFFFFFFFFFFFFFFF 0 6 []) 0x0B_FFFFFFFFFFFFFFFF ∧ (operandField 0x0B_FFFFFFFFFFFFFFFF).toInt < 0 ∧
      opcodeField 0x0B_FFFFFFFFFFFFFFFF ∉ ([0x0A, 0x0C, 0x0D, 0x0E, 0x0F, 0x11] : List OpcodeField)) ∧
    (Fetches (at_ 0x12_8000000000000000 4 6 []) 0x12_8000000000000000 ∧ (operandField 0x12_8000000000000000).toInt < 0 ∧
      opcodeField 0x12_8000000000000000 ∉ ([0x0A, 0x0C, 0x0D, 0x0E, 0x0F, 0x11] : List OpcodeField)) ∧
    (Fetches (at_ 0x0A_8000000000000000 0 6 []) 0x0A_8000000000000000 ∧
      opcodeField 0x0A_8000000000000000 ∈ ([0x0A, 0x0C, 0x0D, 0x0E, 0x0F] : List OpcodeField)) ∧
    (Fetches (at_ 0x0F_FFFFFFFFFFFFFFFF 4 6 []) 0x0F_FFFFFFFFFFFFFFFF ∧
      opcodeField 0x0F_FFFFFFFFFFFFFFFF ∈ ([0x0A, 0x0C, 0x0D, 0x0E, 0x0F] : List OpcodeField)) ∧
    (Fetches (at_ 0x11_FFFFFFFFFFFFFFF7 0 6 []) 0x11_FFFFFFFFFFFFFFF7 ∧ opcodeField 0x11_FFFFFFFFFFFFFFF7 = 0x11) := by
  decide

/-- Hypotheses of the fault clause of an indirect instruction. -/
abbrev BadPointer (s : State) (k : Word) : Prop := 0 ≤ k.toInt ∧ s.Answers [k.toNat] ∧ (s.cell k.toNat).toInt < 0

theorem test_witness_EffectiveAddressCheck :
    BadPointer (start 0 8 [(1, -1)]) 1 ∧ BadPointer (noAck (start 0 0x8000000000000000 [])) 0 ∧
    BadPointer (start 0 8 [(0x7FFFFFFFFFFFFFFF, -3)]) top ∧
    Instr.loadi 1 ∈ ([.loadi 1, .storei 1, .addi 1, .subi 1] : List Instr) := by decide

theorem test_witness_UnknownOpcodeFault :
    (Fetches (at_ 0x12_0000000000000000 0 0 []) 0x12_0000000000000000 ∧ 0x12 ≤ (opcodeField 0x12_0000000000000000).toNat ∧
      0 ≤ (operandField 0x12_0000000000000000).toInt) ∧
    (Fetches (at_ 0xFF_7FFFFFFFFFFFFFFF 4 0 []) 0xFF_7FFFFFFFFFFFFFFF ∧ 0x12 ≤ (opcodeField 0xFF_7FFFFFFFFFFFFFFF).toNat ∧
      0 ≤ (operandField 0xFF_7FFFFFFFFFFFFFFF).toInt) ∧
    (Fetches (at_ 0xFF_FFFFFFFFFFFFFFFF 4 0 []) 0xFF_FFFFFFFFFFFFFFFF ∧ 0x12 ≤ (opcodeField 0xFF_FFFFFFFFFFFFFFFF).toNat ∧
      (operandField 0xFF_FFFFFFFFFFFFFFFF).toInt < 0) := by decide

/-- A Running machine out of reset whose step answers a state that satisfies `post`. -/
abbrev StepsTo (s : State) (post : State → Prop) : Prop :=
  s.host.rst = false ∧ s.rs = .running ∧ ∃ t, step s = .next t ∧ post t

theorem test_witness_TakingAFaultChangesOnlyTheRecord :
    StepsTo (start (-1) 4 []) (fun t => t.rs = .fatal) ∧
    StepsTo (at_ 0x02_FFFFFFFFFFFFFFFF 0 4 []) (fun t => t.rs = .fatal) ∧
    StepsTo (at_ 0x12_0000000000000000 4 4 []) (fun t => t.rs = .fatal) :=
  ⟨⟨rfl, rfl, _, rfl, rfl⟩, ⟨rfl, rfl, _, rfl, rfl⟩, ⟨rfl, rfl, _, rfl, rfl⟩⟩

theorem test_witness_PriorityOfChecks :
    fetch (start (-1) 0 []) = none ∧ fetch (start 5 0 []) = none ∧
    Fetches (at_ 0x11_FFFFFFFFFFFFFFFF 0 0 []) 0x11_FFFFFFFFFFFFFFFF ∧
    Fetches (at_ 0xFF_FFFFFFFFFFFFFFFF 4 0 []) 0xFF_FFFFFFFFFFFFFFFF ∧
    Fetches (at_ 0x12_0000000000000000 0 0 []) 0x12_0000000000000000 ∧
    (Fetches (at_ 0x04_0000000000000001 0 0 [(1, -1)]) 0x04_0000000000000001 ∧
      BadPointer (at_ 0x04_0000000000000001 0 0 [(1, -1)]) 1) ∧
    Fetches (at_ 0x0A_FFFFFFFFFFFFFFFF 4 0 []) 0x0A_FFFFFFFFFFFFFFFF := by decide

theorem test_witness_ResetValues : State.reset = State.reset := rfl

theorem test_witness_ResetAtAnyTime :
    (hostReset true (start 3 9 [(4, 4)])).host.rst = true ∧
    ((hostReset true getOnItsWrite).host.rst = true ∧ (hostReset true getOnItsWrite).wait.isSome = true) ∧
    ((hostReset true { start 3 9 [] with rs := .fatal }).Ended ∧
      ∃ t, step (hostReset true { start 3 9 [] with rs := .fatal }) = .next t ∧ t.rs = .running) :=
  ⟨rfl, ⟨rfl, rfl⟩, .inr rfl, _, rfl, rfl⟩

/-- A state a run could reach: `PUT 5` just completed at index 0, the next word is a `HALT`. -/
def midRun : State :=
  { start 1 9 [(5, 7)] with
    tc := 100
    ic := 100
    defined := [0, 5]
    out := [7]
    dbg := some { pc := 0, opcode := 0x01, operand := 5, acc := 9, accDef := true } }

theorem midRun_inv : midRun.Inv where
  memory := by decide
  definedAscending := by decide
  nonzeroDefined := by
    intro a h
    by_cases h0 : a = 0
    · subst h0; decide
    · by_cases h5 : a = 5
      · subst h5; decide
      · exact absurd (by simp [midRun, start, State.cell, Memory.read, h0, h5, Memory.unlisted]) h
  programFits := by decide
  pcLow := by decide
  pcHigh := by decide
  ioWithinTotal := by decide
  ioHundreds := by decide
  outputCharged := by decide
  noFaultRecord := fun _ => ⟨rfl, rfl⟩
  faultRecord := fun h => by cases h
  invalidPc := fun h => by cases h
  faultAtInstr := fun h => by rcases h with h | h <;> cases h
  haltedAtHalt := fun h => by cases h
  endedQuiet := fun h => by rcases h with h | h <;> cases h
  pendingRead := fun _ _ h => by cases h
  pendingWrite := fun _ _ _ h => by cases h
  waitInstr := fun _ h => by cases h
  waitReads := fun _ _ _ h => by cases h
  waitUncommitted := fun _ h => by cases h
  waitRequests := by decide
  snapshotTrue := fun d h => by cases h; exact ⟨rfl, rfl⟩

theorem test_witness_StepKeepsTheInvariant : midRun.Inv ∧ ∃ t, step midRun = .next t ∧ t.rs = .halted :=
  ⟨midRun_inv, _, rfl, rfl⟩

theorem test_witness_GetWritesTheInputValue :
    (0 ≤ (0 : Word).toInt ∧ (noAck (startIn [7] 0)).takenInput = none ∧ (noAck (startIn [7] 0)).host.input = 7 :: [] ∧
      (noAck (startIn [7] 0)).Answers [(0 : Word).toNat]) ∧
    (0 ≤ top.toInt ∧ (startIn [-9, 1] 4).takenInput = none ∧ (startIn [-9, 1] 4).host.input = -9 :: [1] ∧
      (startIn [-9, 1] 4).Answers [top.toNat]) ∧
    (0 ≤ (5 : Word).toInt ∧ (hostMemory 1 getOnItsWrite).takenInput = some 7 ∧ (hostMemory 1 getOnItsWrite).host.input = [8] ∧
      (hostMemory 1 getOnItsWrite).Answers [(5 : Word).toNat]) ∧
    (0 ≤ (0 : Word).toInt ∧ (startIn [] 0).takenInput = none ∧ (startIn [] 0).host.input = []) ∧ (-1 : Word).toInt < 0 ∧
    (0x8000000000000000 : Word).toInt < 0 := by decide

theorem test_witness_PutHandsOverTheCell :
    (0 ≤ (0 : Word).toInt ∧ (noAck (start 0 4 [])).Answers [(0 : Word).toNat] ∧ (noAck (start 0 4 [])).host.sinkReady = true) ∧
    (0 ≤ top.toInt ∧ (start 0 4 []).Answers [top.toNat] ∧ (start 0 4 []).host.sinkReady = true) ∧
    (0 ≤ top.toInt ∧ (hostSink false (start 0 4 [])).Answers [top.toNat] ∧
      (hostSink false (start 0 4 [])).host.sinkReady = false) ∧
    (-1 : Word).toInt < 0 := by decide

/-- Hypotheses of an instruction with an absolute address operand, at both ends of the address range and with its request
acknowledged now or before, and of its fault. -/
abbrev AddressWitness : Prop :=
  (0 ≤ (0 : Word).toInt ∧ (noAck (start 0 4 [])).Answers [(0 : Word).toNat]) ∧
  (0 ≤ top.toInt ∧ (hostMemory 1 (start 0 4 [])).Answers [top.toNat]) ∧
  (0 ≤ top.toInt ∧ (resumed (.put top) (.output 0) [.read top.toNat 0] (start 0 4 [])).Answers [top.toNat]) ∧
  (-1 : Word).toInt < 0 ∧ (0x8000000000000000 : Word).toInt < 0

theorem test_witness_LoadCopiesTheCellToAcc : AddressWitness := by decide
theorem test_witness_StoreCopiesAccToTheCell : AddressWitness := by decide
theorem test_witness_AddLeavesTheWrappedSum : AddressWitness := by decide
theorem test_witness_SubLeavesTheWrappedDifference : AddressWitness := by decide
theorem test_witness_RtrnJumpsToTheCell : AddressWitness := by decide
theorem test_witness_HalfIsFloorDivisionByTwo : 0 ≤ (0 : Word).toInt ∧ 0 ≤ top.toInt ∧ (-1 : Word).toInt < 0 := by decide

/-- Hypotheses of the completing clause of an indirect instruction. -/
abbrev GoodPointer (s : State) (k : Word) : Prop :=
  0 ≤ k.toInt ∧ 0 ≤ (s.cell k.toNat).toInt ∧ s.Answers [k.toNat, (s.cell k.toNat).toNat]

/-- Both ends of the address range as pointer and as effective address, and both faults. -/
abbrev IndirectWitness : Prop :=
  GoodPointer (noAck (start 0 0 [])) 0 ∧ GoodPointer (start 0 4 [(0x7FFFFFFFFFFFFFFF, top)]) top ∧
  GoodPointer (hostMemory 1 (resumed (.loadi 1) (.dataMemory (.read 7)) [.read 1 7] (start 0 4 [(1, 7)]))) 1 ∧
  GoodPointer (start 0 top []) 0 ∧ BadPointer (start 0 4 [(1, -1)]) 1 ∧
  BadPointer (start 0 0x8000000000000000 []) 0 ∧ (-1 : Word).toInt < 0

theorem test_witness_LoadiReadsThroughThePointer : IndirectWitness := by decide
theorem test_witness_StoreiWritesThroughThePointer : IndirectWitness := by decide
theorem test_witness_AddiLeavesTheWrappedSum : IndirectWitness := by decide
theorem test_witness_SubiLeavesTheWrappedDifference : IndirectWitness := by decide

theorem test_witness_HaltEndsTheRun :
    (start 0 4 []).host.rst = false ∧ ∃ t, exec (.halt (-9)) (start 0 4 []) = .next t ∧ t.rs = .halted := ⟨rfl, _, rfl, rfl⟩

theorem test_witness_UnacknowledgedMemoryWaits :
    ((noAck (startIn [7] 1)).acknowledged + (noAck (startIn [7] 1)).host.dmemAcks = 0 ∧ 0 < (1 : Word).toInt ∧ 0 < top.toInt ∧
      0 < (noAck (startIn [7] 1)).acc.toInt ∧ (noAck (startIn [7] 1)).takenInput = none ∧
      (noAck (startIn [7] 1)).host.input = 7 :: []) ∧
    (getOnItsWrite.acknowledged + getOnItsWrite.host.dmemAcks = 0 ∧ getOnItsWrite.takenInput = some 7 ∧
      getOnItsWrite.host.input = [8]) ∧
    ((noAck (start 0 top [])).acknowledged + (noAck (start 0 top [])).host.dmemAcks = 0 ∧ 0 < (noAck (start 0 top [])).acc.toInt) ∧
    ((hostMemory 1 (start 0 0 [(1, 1)])).acknowledged + (hostMemory 1 (start 0 0 [(1, 1)])).host.dmemAcks = 1 ∧
      0 < ((hostMemory 1 (start 0 0 [(1, 1)])).cell (1 : Word).toNat).toInt) ∧
    ((loadiOnItsCell top).acknowledged + (loadiOnItsCell top).host.dmemAcks = 1 ∧
      0 < ((loadiOnItsCell top).cell top.toNat).toInt) := by decide

theorem test_witness_WaitingStepHasNoEffect :
    StepsTo (place 0x00_0000000000000001 (startIn [] 0)) (fun t => t.wait.isSome = true) ∧
    StepsTo (hostSink false (at_ 0x01_0000000000000000 0 4 [])) (fun t => t.wait.isSome = true) ∧
    StepsTo (noAck (at_ 0x03_0000000000000001 4 4 [])) (fun t => t.wait.isSome = true) ∧
    StepsTo getOnItsWrite (fun t => t.wait.isSome = true ∧ t.host.dmemAcks = 0) :=
  ⟨⟨rfl, rfl, _, rfl, rfl⟩, ⟨rfl, rfl, _, rfl, rfl⟩, ⟨rfl, rfl, _, rfl, rfl⟩, ⟨rfl, rfl, _, rfl, rfl, rfl⟩⟩

theorem test_witness_StepEndsInOneOfFourWays :
    Fetches (at_ 0x0A_0000000000000003 0 0 []) 0x0A_0000000000000003 ∧
    Fetches (at_ 0x11_0000000000000000 0 0 []) 0x11_0000000000000000 ∧
    Fetches (at_ 0x12_0000000000000000 0 0 []) 0x12_0000000000000000 ∧
    Fetches (place 0x00_0000000000000001 (startIn [] 0)) 0x00_0000000000000001 := by decide

/-- The hypotheses of WellFormedInstructionsComplete. -/
abbrev Completes (i : Instr) (s : State) : Prop :=
  i.operandSignOk = true ∧ i.opcode ≠ 0x11 ∧ 2 ≤ s.acknowledged + s.host.dmemAcks ∧
    (i.opcode = 0x01 → s.host.sinkReady = true) ∧
    (i.opcode = 0x00 → s.takenInput.isSome = true ∨ s.host.input ≠ []) ∧
    (i.operandKind = .addressIndirect → 0 ≤ (s.cell i.operand.toNat).toInt)

theorem test_witness_WellFormedInstructionsComplete :
    (∀ i ∈ ([.get 0, .put 0, .load 0, .store 0, .loadi 0, .storei 0, .add 0, .sub 0, .addi 0, .subi 0, .set 0, .half 0,
      .jump 0, .jpos 0, .jzero 0, .jneg 0, .rtrn 0] : List Instr), Completes i (startIn [7] 4)) ∧
    (∀ i ∈ ([.get top, .put top, .load top, .store top, .loadi top, .storei top, .add top, .sub top, .addi top, .subi top,
      .set (-1), .half top, .jump (-1), .jpos (-1), .jzero (-1), .jneg (-1), .rtrn top] : List Instr),
      Completes i (startIn [7] 4)) ∧
    Completes (.loadi 1) (hostMemory 1 (loadiOnItsCell 1)) := by decide

/-- One step of each kind: completing with and without I/O, halting, faulting, waiting. -/
abbrev EveryKindOfStep : Prop :=
  StepsTo (at_ 0x0A_0000000000000003 0 0 []) (fun t => t.rs = .running ∧ t.wait = none) ∧
  StepsTo (place 0x00_0000000000000001 (startIn [7] 0)) (fun t => t.rs = .running ∧ t.wait = none) ∧
  StepsTo (at_ 0x01_0000000000000000 4 4 []) (fun t => t.rs = .running ∧ t.wait = none) ∧
  StepsTo (at_ 0x11_0000000000000000 0 0 []) (fun t => t.rs = .halted) ∧
  StepsTo (start 5 4 []) (fun t => t.rs = .fatal) ∧
  StepsTo (place 0x00_0000000000000001 (startIn [] 0)) (fun t => t.wait.isSome = true)

theorem test_every_kind_of_step : EveryKindOfStep :=
  ⟨⟨rfl, rfl, _, rfl, rfl, rfl⟩, ⟨rfl, rfl, _, rfl, rfl, rfl⟩, ⟨rfl, rfl, _, rfl, rfl, rfl⟩, ⟨rfl, rfl, _, rfl, rfl⟩,
    ⟨rfl, rfl, _, rfl, rfl⟩, ⟨rfl, rfl, _, rfl, rfl⟩⟩

theorem test_witness_OnlyCompletedStepsAreCharged : EveryKindOfStep := test_every_kind_of_step
theorem test_witness_CountersNeverDecrease : EveryKindOfStep := test_every_kind_of_step
theorem test_witness_RunStateTransitions : EveryKindOfStep := test_every_kind_of_step
theorem test_witness_HostSideIsLeftAlone : EveryKindOfStep := test_every_kind_of_step
theorem test_witness_OutputGrowsOnlyByPut : EveryKindOfStep := test_every_kind_of_step
theorem test_witness_DefinedGrowsByTheAccesses : EveryKindOfStep := test_every_kind_of_step
theorem test_witness_SnapshotExactlyAfterCompletion : EveryKindOfStep := test_every_kind_of_step

theorem test_witness_AtMostOneCellIsWritten :
    (∃ t, exec (.store 6) (start 0 4 [(7, 1)]) = .next t ∧ t.tc = 10) ∧
    writtenCell (.store 6) (start 0 4 [(7, 1)]) ≠ some 7 ∧
    (∃ t, exec (.storei 1) (start 0 4 [(1, 6)]) = .next t ∧ t.tc = 20) ∧
    writtenCell (.storei 1) (start 0 4 [(1, 6)]) ≠ some 1 := ⟨⟨_, rfl, rfl⟩, by decide, ⟨_, rfl, rfl⟩, by decide⟩

theorem test_witness_RegistersOutsideTheFrame :
    (∃ t, exec (.store 6) (start 0 4 []) = .next t ∧ t.rs ≠ .fatal) ∧ writtenCell (.store 6) (start 0 4 []) ≠ some 0 ∧
    (Instr.store 6).opcode ≠ 0x00 ∧ (Instr.store 6).opcode ≠ 0x01 := ⟨⟨_, rfl, by decide⟩, by decide, by decide, by decide⟩

theorem test_witness_ReadsPrecedeTheOneWrite :
    ∃ t, exec (.storei 1) (start 0 4 [(1, 6)]) = .next t ∧ Access.read 1 6 ∈ t.trace.dropLast := ⟨_, rfl, by decide⟩

theorem test_witness_NextPcIsExact :
    ((start 0 4 []).rs = .running ∧ 0 ≤ (start 0 4 []).pc.toInt ∧ (start 0 4 []).pc.toInt < 2 ^ 63 ∧
      ∃ t, exec (.jump (-1)) (start 0 4 []) = .next t ∧ t.pc = -1) ∧
    ((start 0x7FFFFFFFFFFFFFFF 4 []).rs = .running ∧ 0 ≤ (start 0x7FFFFFFFFFFFFFFF 4 []).pc.toInt ∧
      (start 0x7FFFFFFFFFFFFFFF 4 []).pc.toInt < 2 ^ 63 ∧
      ∃ t, exec (.jump top) (start 0x7FFFFFFFFFFFFFFF 4 []) = .next t ∧ t.pc = 0xFFFFFFFFFFFFFFFE) ∧
    (∃ t, exec (.halt 0) (start 0 4 []) = .next t ∧ t.rs ≠ .running) :=
  ⟨⟨rfl, by decide, by decide, _, rfl, by decide⟩, ⟨rfl, by decide, by decide, _, rfl, by decide⟩, _, rfl, by decide⟩

theorem test_witness_AdderWrapsAround :
    (-2 ^ 63 ≤ top.toInt + (0 : Word).toInt ∧ top.toInt + (0 : Word).toInt < 2 ^ 63) ∧
    (-2 ^ 63 ≤ (0x8000000000000000 : Word).toInt - (0 : Word).toInt ∧
      (0x8000000000000000 : Word).toInt - (0 : Word).toInt < 2 ^ 63) := by decide

theorem test_witness_StoreThenLoadRoundTrip :
    (Memory.wf (start 0 17 [(4, 1)]).mem = true ∧ 0 ≤ (4 : Word).toInt ∧ 1 ≤ (start 0 17 [(4, 1)]).host.dmemAcks) ∧
    (Memory.wf (noAck (start 0 17 [])).mem = true ∧ 0 ≤ (0 : Word).toInt) ∧
    (Memory.wf (start 0 17 []).mem = true ∧ 0 ≤ top.toInt ∧ 1 ≤ (hostMemory 1 (start 0 17 [])).host.dmemAcks) := by decide

/-- The same core with other counters, `DEF`, `OUT`, snapshot and trace. -/
def otherObservers (s : State) : State :=
  { s with tc := 999, ic := 300, defined := [3], out := [1, 2], dbg := none, trace := [.input 8] }

theorem otherObservers_core (s : State) : s.SameCore (otherObservers s) := ⟨rfl, rfl, rfl, rfl, rfl, rfl⟩

theorem test_witness_ObserversNeverInfluenceExecution :
    ((at_ 0x01_0000000000000000 0 4 []).SameCore (otherObservers (at_ 0x01_0000000000000000 0 4 [])) ∧
      StepsTo (at_ 0x01_0000000000000000 0 4 []) (fun t => t.rs = .running ∧ t.wait = none)) ∧
    ((at_ 0x02_FFFFFFFFFFFFFFFF 0 4 []).SameCore (otherObservers (at_ 0x02_FFFFFFFFFFFFFFFF 0 4 [])) ∧
      StepsTo (at_ 0x02_FFFFFFFFFFFFFFFF 0 4 []) (fun t => t.rs = .fatal)) :=
  ⟨⟨otherObservers_core _, rfl, rfl, _, rfl, rfl, rfl⟩, ⟨otherObservers_core _, rfl, rfl, _, rfl, rfl⟩⟩

theorem test_witness_EnumerationIsAscending :
    midRun.Inv ∧ midRun.dbg = some { pc := 0, opcode := 0x01, operand := 5, acc := 9, accDef := true } ∧
    midRun.enumeration = [(0, 9), (5, 7)] := ⟨midRun_inv, rfl, by decide⟩

theorem test_witness_StatusPortCodes :
    midRun.rs = .running ∧ midRun.fc = none ∧ midRun.tc < 2 ^ 64 ∧ midRun.ic < 2 ^ 64 ∧
    { midRun with tc := 2 ^ 64 - 1 }.tc < 2 ^ 64 ∧ { midRun with rs := .halted }.Ended ∧
    (midRun.afterFault .invalidProgramCounter).fc = some .invalidProgramCounter ∧
    (midRun.afterFault .negativeAddress).fc = some .negativeAddress ∧
    (midRun.afterFault .unknownOpcode).fc = some .unknownOpcode ∧ (midRun.afterFault .unknownOpcode).Ended := by decide

theorem test_witness_TransferTargetsAreCheckedAtTheNextFetch :
    (Fetches (at_ 0x0C_FFFFFFFFFFFFFFFF 0 0 []) 0x0C_FFFFFFFFFFFFFFFF ∧
      decode 0x0C_FFFFFFFFFFFFFFFF = .ok (.jump (-1)) ∧
      StepsTo (at_ 0x0C_FFFFFFFFFFFFFFFF 0 0 []) (fun t => t.rs = .running ∧ t.wait = none ∧ t.pc.toInt < 0)) ∧
    (Fetches (at_ 0x10_0000000000000002 4 0 [(2, 5)]) 0x10_0000000000000002 ∧
      decode 0x10_0000000000000002 = .ok (.rtrn 2) ∧
      StepsTo (at_ 0x10_0000000000000002 4 0 [(2, 5)]) (fun t => t.rs = .running ∧ t.wait = none ∧ (5 : Int) ≤ t.pc.toInt)) :=
  ⟨⟨by decide, rfl, rfl, rfl, _, rfl, rfl, rfl, by decide⟩, ⟨by decide, rfl, rfl, rfl, _, rfl, rfl, rfl, by decide⟩⟩

/-- A program one word longer than the store holds. -/
def tooLong : State := hostLoad (List.replicate (2 ^ 63 + 1) haltWord) State.reset

theorem test_witness_NoStepLeavesTheAddressSpace : step tooLong = .refused .programTooLong := by
  have h : ¬ tooLong.host.program.length ≤ Config.progLenMax := by
    unfold tooLong hostLoad Config.progLenMax
    rw [List.length_replicate]
    omega
  unfold step engineStep
  rw [if_neg (by decide)]
  exact if_neg h

end Sys2Proof.Tests
end

section
/-! PROOF. How the work of an instruction ends, said once for all 18: every working state it passes through keeps to one frame, the
only fault it raises is NegativeAddress, and it never stops. What an instruction leaves unchanged, how `DEF` grows and the safety of
every address follow from that. -/

namespace Sys2Proof.Machine

/-! ### Reasoning rules: how an operation's work may end -/

/-- The work of `i` ends as the spec lets it (R103): the working state it answers satisfies `P`, only `HALT` halts, the one fault
of the execute part is NegativeAddress (R93, R94), and the model's own stop does not occur. -/
def StepEnd.Proper (i : Instr) (P : State → Prop) : StepEnd → Prop
  | .completes done => P done
  | .halts => i.opcode = 0x11
  | .raises kind => kind = .negativeAddress
  | .waits _ mid => P mid
  | .stops _ => False

section Rules

variable {i : Instr} {P : State → Prop} {s : State}

theorem memRead_proper {a : Nat} {f : Word → State → StepEnd} (ha : a < Config.addrLimit) (hs : P s)
    (hf : (f (s.cell a) ((s.define a).note (.read a (s.cell a)))).Proper i P) : (memRead a s f).Proper i P := by
  rcases memRead_cases a s f with ⟨-, -, e⟩ | ⟨-, -, e⟩ | ⟨hge, -⟩
  · rwa [e]
  · rwa [e]
  · omega

theorem memWrite_proper {a : Nat} {v : Word} {f : State → StepEnd} (ha : a < Config.addrLimit) (hs : P s)
    (hf : (f (((s.setCell a v).define a).note (.write a v))).Proper i P) : (memWrite a v s f).Proper i P := by
  rcases memWrite_cases a v s f with ⟨-, -, e⟩ | ⟨-, -, e⟩ | ⟨hge, -⟩
  · rwa [e]
  · rwa [e]
  · omega

/-- The accumulator needs no address and no acknowledgement (R57). -/
theorem memRead_acc_proper {f : Word → State → StepEnd} (hf : (f s.acc ((s.define 0).note (.read 0 s.acc))).Proper i P) :
    (memRead 0 s f).Proper i P := by
  rwa [memRead_acc]

theorem memWrite_acc_proper {v : Word} {f : State → StepEnd}
    (hf : (f (((s.setCell 0 v).define 0).note (.write 0 v))).Proper i P) : (memWrite 0 v s f).Proper i P := by
  rwa [memWrite_acc]

theorem inRead_proper {f : Word → State → StepEnd} (hs : P s)
    (hf : ∀ v rest, (f v ((s.consumeInput rest).note (.input v))).Proper i P) : (inRead s f).Proper i P := by
  rcases inRead_cases s f with ⟨-, e⟩ | ⟨v, rest, -, e⟩
  · rwa [e]
  · rw [e]; exact hf v rest

theorem outWrite_proper {v : Word} {f : State → StepEnd} (hs : P s)
    (hf : (f ((s.emit v).note (.output v))).Proper i P) : (outWrite v s f).Proper i P := by
  rcases outWrite_cases v s f with ⟨-, e⟩ | ⟨-, e⟩ <;> rwa [e]

/-- What comes after the address check gets an address inside the space (R55). -/
theorem checkedAddress_proper {v : Word} {f : Nat → StepEnd} (hf : v.toNat < Config.addrLimit → (f v.toNat).Proper i P) :
    (checkedAddress v f).Proper i P := by
  rcases checkedAddress_cases v f with ⟨-, hv, e⟩ | ⟨-, e⟩
  · rw [e]; exact hf hv
  · rw [e]; rfl

theorem indirectOperand_proper {k : Word} {f : Nat → State → StepEnd} (hs : P s)
    (hf : (s.cell k.toNat).toNat < Config.addrLimit →
      (f (s.cell k.toNat).toNat ((s.define k.toNat).note (.read k.toNat (s.cell k.toNat)))).Proper i P) :
    (indirectOperand k s f).Proper i P := by
  unfold indirectOperand addressOperand
  exact checkedAddress_proper fun hk => memRead_proper hk hs (checkedAddress_proper hf)

end Rules

/-! ### The frame of a working state -/

@[simp] theorem accessAddresses_append (x y : List Access) :
    accessAddresses (x ++ y) = accessAddresses x ++ accessAddresses y := List.filterMap_append

@[simp] theorem accessAddresses_read (a : Nat) (v : Word) : accessAddresses [.read a v] = [a] := rfl
@[simp] theorem accessAddresses_write (a : Nat) (v : Word) : accessAddresses [.write a v] = [a] := rfl
@[simp] theorem accessAddresses_input (v : Word) : accessAddresses [.input v] = [] := rfl
@[simp] theorem accessAddresses_output (v : Word) : accessAddresses [.output v] = [] := rfl

/-- `t` is a working state of `i` begun in `s`: all that the accesses of `i` may have changed so far is the pc, the one cell `i`
writes (R65), the output of `PUT`, the input of `GET`, and `DEF`, which holds the accesses noted in the trace (R33). -/
structure Working (i : Instr) (s t : State) : Prop where
  rs : t.rs = s.rs
  tc : t.tc = s.tc
  ic : t.ic = s.ic
  fc : t.fc = s.fc
  fpc : t.fpc = s.fpc
  wait : t.wait = s.wait
  cell : ∀ a, writtenCell i s ≠ some a → t.cell a = s.cell a
  out : i.opcode ≠ 0x01 → t.out = s.out
  input : i.opcode ≠ 0x00 → t.host.input = s.host.input
  host : t.host = { s.host with input := t.host.input }
  defined : ∀ a, a ∈ t.defined ↔ a ∈ s.defined ∨ a ∈ accessAddresses t.trace

namespace Working

variable {i : Instr} {s t : State}

theorem start (i : Instr) (s : State) : Working i s s.fresh where
  rs := rfl
  tc := rfl
  ic := rfl
  fc := rfl
  fpc := rfl
  wait := rfl
  cell _ _ := rfl
  out _ := rfl
  input _ := rfl
  host := rfl
  defined a := by simp [accessAddresses]

theorem read (h : Working i s t) (a : Nat) (v : Word) : Working i s ((t.define a).note (.read a v)) :=
  { h with defined := fun x => by simp [h.defined]; tauto }

theorem write (h : Working i s t) {a : Nat} (ha : writtenCell i s = some a) (v : Word) :
    Working i s (((t.setCell a v).define a).note (.write a v)) :=
  { h with
    cell := fun x hx => by
      have hne : x ≠ a := fun e => hx (e ▸ ha)
      rw [State.cell_note, State.cell_define, State.cell_setCell_other t a x v hne, h.cell x hx]
    defined := fun x => by simp [h.defined]; tauto }

theorem takeInput (h : Working i s t) (hi : i.opcode = 0x00) (v : Word) (rest : List Word) :
    Working i s ((t.consumeInput rest).note (.input v)) :=
  { h with
    input := fun hne => absurd hi hne
    host := by rw [State.note_host, State.consumeInput_host, h.host]
    defined := fun x => by simp [h.defined] }

theorem handOver (h : Working i s t) (hi : i.opcode = 0x01) (v : Word) : Working i s ((t.emit v).note (.output v)) :=
  { h with
    out := fun hne => absurd hi hne
    defined := fun x => by simp [h.defined] }

/-- The frame leaves the pc free. -/
theorem setPc (h : Working i s t) (p : Pc) : Working i s { t with pc := p } := { h with }

theorem advance (h : Working i s t) : Working i s (advance t) := h.setPc _

theorem branch (h : Working i s t) (taken : Bool) (k : Word) : Working i s (branch taken k t) := by
  cases taken
  · exact h.advance
  · exact h.setPc _

theorem host_eq (h : Working i s t) (hi : i.opcode ≠ 0x00) : t.host = s.host := by
  rw [h.host, h.input hi]

theorem acc_eq (h : Working i s t) (hi : writtenCell i s ≠ some 0) : t.acc = s.acc := h.cell 0 hi

end Working

/-- Settling is all that `perform` adds to the work of a meaning (R91, R102). -/
theorem perform_settles {i : Instr} {P : State → Prop} {s : State} {work : State → StepEnd}
    (h : (work s.fresh).Proper i P) : ∃ e, perform i s work = settle i s e ∧ e.Proper i P :=
  ⟨_, rfl, h⟩

/-- Every instruction settles a work that ends properly, inside the frame (R65, R102, R103). -/
theorem exec_settles (i : Instr) (s : State) : ∃ e, exec i s = settle i s e ∧ e.Proper i (Working i s) := by
  have w := Working.start i s
  cases i <;> unfold exec <;> refine perform_settles ?_
  case get k =>
    refine checkedAddress_proper fun hk => inRead_proper w fun v rest => ?_
    have w := w.takeInput rfl v rest
    exact memWrite_proper hk w (w.write rfl v).advance
  case put k =>
    refine checkedAddress_proper fun hk => memRead_proper hk w ?_
    exact outWrite_proper (w.read ..) ((w.read ..).handOver rfl _).advance
  case load k =>
    refine checkedAddress_proper fun hk => memRead_proper hk w ?_
    exact memWrite_acc_proper ((w.read ..).write rfl _).advance
  case store k =>
    refine checkedAddress_proper fun hk => memRead_acc_proper ?_
    exact memWrite_proper hk (w.read ..) ((w.read ..).write rfl _).advance
  case loadi k =>
    refine indirectOperand_proper w fun he => memRead_proper he (w.read ..) ?_
    exact memWrite_acc_proper (((w.read ..).read ..).write rfl _).advance
  case storei k =>
    refine indirectOperand_proper w fun he => memRead_acc_proper ?_
    exact memWrite_proper he ((w.read ..).read ..) (((w.read ..).read ..).write rfl _).advance
  case add k | sub k =>
    refine checkedAddress_proper fun hk => memRead_acc_proper (memRead_proper hk (w.read ..) ?_)
    exact memWrite_acc_proper (((w.read ..).read ..).write rfl _).advance
  case addi k | subi k =>
    refine indirectOperand_proper w fun he => memRead_proper he (w.read ..) (memRead_acc_proper ?_)
    exact memWrite_acc_proper ((((w.read ..).read ..).read ..).write rfl _).advance
  case set k => exact memWrite_acc_proper (w.write rfl k).advance
  case half k =>
    exact checkedAddress_proper fun _ => memRead_acc_proper (memWrite_acc_proper ((w.read ..).write rfl _).advance)
  case jump k => exact w.setPc _
  case jpos k | jzero k | jneg k => exact memRead_acc_proper ((w.read ..).branch ..)
  case rtrn k => exact checkedAddress_proper fun hk => memRead_proper hk w ((w.read ..).setPc _)
  case halt k => rfl

/-- Everything an instruction can answer as a next state. -/
theorem exec_next {i : Instr} {s t : State} (h : exec i s = .next t) :
    (∃ done, Working i s done ∧ t = retire i s done) ∨ (i.opcode = 0x11 ∧ t = haltRun s) ∨
    t = raiseFatal .negativeAddress s ∨ (∃ reason mid, Working i s mid ∧ t = holdWait i reason s mid) := by
  obtain ⟨e, he, hp⟩ := exec_settles i s
  rcases settle_next (he ▸ h) with ⟨done, rfl, ht⟩ | ⟨rfl, ht⟩ | ⟨kind, rfl, ht⟩ | ⟨reason, mid, rfl, ht⟩
  · exact .inl ⟨done, hp, ht⟩
  · exact .inr (.inl ⟨hp, ht⟩)
  · cases hp; exact .inr (.inr (.inl ht))
  · exact .inr (.inr (.inr ⟨reason, mid, hp, ht⟩))

/-- Every instruction answers a next state, from every state. -/
theorem exec_answers (i : Instr) (s : State) : ∃ t, exec i s = .next t := by
  obtain ⟨e, he, hp⟩ := exec_settles i s
  rw [he]
  cases e with
  | completes done => exact ⟨_, rfl⟩
  | halts => exact ⟨_, rfl⟩
  | raises kind => exact ⟨_, rfl⟩
  | waits reason mid => exact ⟨_, rfl⟩
  | stops reason => exact hp.elim

/-! ### What an instruction leaves unchanged -/

theorem ioCost_eq_zero {i : Instr} (hget : i.opcode ≠ 0x00) (hput : i.opcode ≠ 0x01) : ioCost i = 0 := by
  cases i with
  | get k => exact absurd rfl hget
  | put k => exact absurd rfl hput
  | _ => rfl

/-- Settles O47: each of the four ends of an instruction, with the frame of its working state. -/
theorem registersOutsideTheFrame : Obligations.RegistersOutsideTheFrame := by
  intro i s t h
  rcases exec_next h with ⟨done, w, rfl⟩ | ⟨hi, rfl⟩ | rfl | ⟨reason, mid, w, rfl⟩
  · exact ⟨w.acc_eq, fun _ => ⟨w.fc, w.fpc⟩, .inl w.rs, w.out, w.host_eq,
      fun hget hput => by rw [retire_ic, w.ic, ioCost_eq_zero hget hput, Nat.add_zero], w.host⟩
  · exact ⟨fun _ => rfl, fun _ => ⟨rfl, rfl⟩, .inr (.inl ⟨rfl, hi⟩), fun _ => rfl, fun _ => rfl, fun _ _ => rfl, rfl⟩
  · exact ⟨fun _ => rfl, fun hrs => absurd rfl hrs, .inr (.inr rfl), fun _ => rfl, fun _ => rfl, fun _ _ => rfl, rfl⟩
  · exact ⟨fun _ => rfl, fun _ => ⟨rfl, rfl⟩, .inl rfl, fun _ => rfl, w.host_eq, fun _ _ => rfl, w.host⟩

/-! ### The growth of `DEF` -/

/-- An instruction either completes, adding its accesses to `DEF`, or commits no access at all (R33, R102). -/
theorem exec_defined {i : Instr} {s t : State} (h : exec i s = .next t) :
    (t.rs = s.rs ∧ t.wait = none ∧ ∀ a, a ∈ t.defined ↔ a ∈ s.defined ∨ a ∈ accessAddresses t.trace) ∨
    (t.defined = s.defined ∧ t.trace = []) := by
  rcases exec_next h with ⟨done, w, rfl⟩ | ⟨-, rfl⟩ | rfl | ⟨reason, mid, -, rfl⟩
  · exact .inl ⟨w.rs, rfl, w.defined⟩
  · exact .inr ⟨rfl, rfl⟩
  · exact .inr ⟨rfl, rfl⟩
  · exact .inr ⟨rfl, rfl⟩

/-- The same of a Running step: a fault at fetch and an unknown opcode commit no access either (R180). -/
theorem step_defined {s t : State} (hrst : s.host.rst = false) (hrs : s.rs = .running) (h : step s = .next t) :
    (t.rs = .running ∧ t.wait = none ∧ ∀ a, a ∈ t.defined ↔ a ∈ s.defined ∨ a ∈ accessAddresses t.trace) ∨
    (t.defined = s.defined ∧ t.trace = []) := by
  rcases step_next h with ⟨hr, -⟩ | ⟨-, he, -⟩ | ⟨-, -, -, hw⟩
  · simp [hrst] at hr
  · simp [State.Ended, hrs] at he
  · rcases hw with ⟨-, rfl⟩ | ⟨w, i, -, -, hx⟩ | ⟨w, op, k, -, -, hx⟩
    · exact .inr ⟨rfl, rfl⟩
    · exact hrs ▸ exec_defined hx
    · cases hx; exact .inr ⟨rfl, rfl⟩

/-- Settles O49, from the two ways a Running step can treat `DEF`. -/
theorem definedGrowsByTheAccesses : Obligations.DefinedGrowsByTheAccesses := by
  intro s t hrst hrs h
  rcases step_defined hrst hrs h with ⟨hrun, hwait, hdef⟩ | ⟨hdef, htrace⟩
  · exact ⟨hdef, fun hc => by simp [hrun, hwait] at hc⟩
  · exact ⟨fun a => by simp [hdef, htrace, accessAddresses], fun _ => ⟨hdef, htrace⟩⟩

/-! ### No step stops -/

theorem runWord_answers (w : InsnWord) (s : State) : ∃ t, runWord w s = .next t := by
  unfold runWord
  cases decode w with
  | ok i => exact exec_answers i s
  | error e => exact ⟨_, rfl⟩

/-- A step answers a next state, or is refused for a Running machine whose program is longer than its store (R9, I9). -/
theorem step_answers (s : State) :
    (∃ t, step s = .next t) ∨
    (step s = .refused .programTooLong ∧ s.host.rst = false ∧ s.rs = .running ∧
      Config.progLenMax < s.host.program.length) := by
  unfold step engineStep
  cases hr : s.host.rst with
  | true => exact .inl ⟨_, rfl⟩
  | false =>
    cases hs : s.rs with
    | halted => exact .inl ⟨_, rfl⟩
    | fatal => exact .inl ⟨_, rfl⟩
    | running =>
      unfold runStep
      by_cases hl : s.host.program.length ≤ Config.progLenMax
      · rw [if_pos hl]
        cases fetch s with
        | none => exact .inl ⟨_, rfl⟩
        | some w => exact .inl (runWord_answers w s)
      · rw [if_neg hl]
        exact .inr ⟨rfl, rfl, rfl, by omega⟩

/-- Settles O60: every step answers a next state but the one refusal. -/
theorem noStepLeavesTheAddressSpace : Obligations.NoStepLeavesTheAddressSpace := by
  intro s
  rcases step_answers s with ⟨t, e⟩ | ⟨e, hrst, hrs, hlen⟩
  · simp [e]
  · simp [e, hrst, hrs, hlen]

end Sys2Proof.Machine
end

section
/-! PROOF. The state after reset, the held state of an ended run, the status ports, and, for the statements that follow, the opcode
field and the cost of a decoded word and what a step does once the word at the pc is known. -/

namespace Sys2Proof.Machine

/-! ### Fields and cost of the instruction executed -/

/-- The opcode field of a word is the opcode number of the instruction it decodes to (R74). -/
theorem opcodeField_of_decode {w : InsnWord} {i : Instr} (h : decode w = .ok i) : opcodeField w = i.opcode := by
  unfold decode at h
  split at h
  case h_19 => cases h
  all_goals
    cases h
    exact BitVec.eq_of_toNat_eq ‹_›

/-- Every instruction but `HALT` costs at least 1 (R28, R97). -/
theorem cost_pos {i : Instr} (h : i.opcode ≠ 0x11) : 1 ≤ cost i := by
  cases i with
  | halt k => exact absurd rfl h
  | _ => exact Nat.le_of_ble_eq_true rfl

theorem ioCost_le_cost (i : Instr) : ioCost i ≤ cost i := by
  cases i <;> exact Nat.le_of_ble_eq_true rfl

theorem ioCost_mod_hundred (i : Instr) : ioCost i % 100 = 0 := by
  cases i <;> simp [ioCost]

/-! ### What a step does, from what it fetches -/

/-- The fetch reads the pc and the program alone (R92). -/
theorem fetch_congr {s t : State} (hpc : s.pc = t.pc) (hprog : s.host.program = t.host.program) : fetch s = fetch t := by
  unfold fetch; rw [hpc, hprog]

theorem step_of_reset {s : State} (hrst : s.host.rst = true) : step s = .next (applyReset s) := by
  rw [step, engineStep, if_pos hrst]

/-- Settles O7, by the two terminal run states. -/
theorem heldWhenNotRunning : Obligations.HeldWhenNotRunning := by
  intro s hrst hend
  rcases hend with hs | hs <;> simp [step, engineStep, hrst, hs]

/-- The step of a pc out of range (R92). -/
theorem step_of_fetch_none {s : State} (hrst : s.host.rst = false) (hrs : s.rs = .running)
    (hlen : s.host.program.length ≤ Config.progLenMax) (hf : fetch s = none) :
    step s = .next (raiseFatal .invalidProgramCounter s) := by
  simp [step, engineStep, runStep, hrst, hrs, hlen, hf, fetchFault]

/-- The step of a fetched word is that of the word (R91). -/
theorem step_of_fetch {s : State} {w : InsnWord} (hrst : s.host.rst = false) (hrs : s.rs = .running)
    (hlen : s.host.program.length ≤ Config.progLenMax) (hf : fetch s = some w) : step s = runWord w s := by
  simp [step, engineStep, runStep, hrst, hrs, hlen, hf]

theorem runWord_of_decode {w : InsnWord} {i : Instr} (hd : decode w = .ok i) (s : State) : runWord w s = exec i s := by
  unfold runWord; rw [hd]

theorem runWord_of_unknown {w : InsnWord} {op : OpcodeField} {k : Word} (hd : decode w = .error (.unknownOpcode op k))
    (s : State) : runWord w s = execUnknown k s := by
  unfold runWord; rw [hd]

/-- An unknown opcode takes one of two faults and changes nothing else (R76, R180). -/
theorem execUnknown_next {k : Word} {s t : State} (h : execUnknown k s = .next t) :
    ∃ kind, (kind = .negativeAddress ∨ kind = .unknownOpcode) ∧ t = raiseFatal kind s := by
  rcases execUnknown_cases k s with ⟨-, e⟩ | ⟨-, e⟩
  · exact ⟨_, .inl rfl, (Host.Outcome.next.inj (e.symm.trans h)).symm⟩
  · exact ⟨_, .inr rfl, (Host.Outcome.next.inj (e.symm.trans h)).symm⟩

/-! ### Reset and the ports -/

/-- An absent cell reads 0 (R51). -/
theorem State.cell_reset (a : Nat) : State.reset.cell a = 0 := by
  unfold State.cell
  split <;> rfl

/-- Settles O14: the values `State.reset` is written with, and every absent cell reads 0. -/
theorem resetValues : Obligations.ResetValues := by
  rintro t rfl
  exact ⟨rfl, rfl, rfl, rfl, State.cell_reset, rfl, rfl, rfl, rfl, rfl, rfl, rfl, rfl, rfl⟩

/-- The clauses of the invariant about the step in progress (R57, R58, R65, R102). -/
structure WaitInv (s : State) : Prop where
  pendingRead : ∀ w a, s.wait = some w → w.reason = .dataMemory (.read a) → 1 ≤ a ∧ a < Config.addrLimit
  pendingWrite : ∀ w a v, s.wait = some w → w.reason = .dataMemory (.write a v) → 1 ≤ a ∧ a < Config.addrLimit
  waitInstr : ∀ w, s.wait = some w → ∃ word, fetch s = some word ∧ decode word = .ok w.instr
  waitReads : ∀ w a v, s.wait = some w → .read a v ∈ w.done → v = s.cell a
  waitUncommitted : ∀ w, s.wait = some w → ∀ x ∈ w.done, x.isWrite = false ∧ ∀ v, x ≠ .output v
  waitRequests : s.acknowledged ≤ 1

/-- They ask nothing of a state in which no step is in progress. -/
theorem WaitInv.of_none {s : State} (h : s.wait = none) : WaitInv s where
  pendingRead := by simp [h]
  pendingWrite := by simp [h]
  waitInstr := by simp [h]
  waitReads := by simp [h]
  waitUncommitted := by simp [h]
  waitRequests := by simp [h]

/-- A machine with every element at its reset value satisfies the invariant with any program that fits. -/
theorem applyReset_inv {s : State} (hprog : s.host.program.length ≤ Config.progLenMax) : (applyReset s).Inv :=
  { WaitInv.of_none (applyReset_wait s) with
    memory := rfl
    definedAscending := rfl
    nonzeroDefined := fun a ha => absurd (State.cell_reset a) ha
    programFits := hprog
    pcLow := show -2 ^ 63 ≤ (0 : Pc).toInt by decide
    pcHigh := show (0 : Pc).toInt ≤ 2 ^ 64 - 2 by decide
    ioWithinTotal := Nat.le_refl 0
    ioHundreds := rfl
    outputCharged := Nat.le_refl 0
    noFaultRecord := fun _ => ⟨rfl, rfl⟩
    faultRecord := fun h => by cases h
    invalidPc := fun h => by cases h
    faultAtInstr := fun h => by rcases h with h | h <;> cases h
    haltedAtHalt := fun h => by cases h
    endedQuiet := fun h => by rcases h with h | h <;> cases h
    snapshotTrue := fun _ h => by cases h }

/-- Settles O16: right after reset is a reset with no program loaded (log 2). -/
theorem resetSatisfiesTheInvariant : Obligations.ResetSatisfiesTheInvariant :=
  applyReset_inv (s := State.reset) (Nat.zero_le _)

/-- Settles O58, port by port. -/
theorem statusPortCodes : Obligations.StatusPortCodes := by
  intro s
  have hclass : ∀ c, s.fc = c → faultClassPort s = faultCode c := fun c h => congrArg faultCode h
  refine ⟨fun h => ?_, fun h => ?_, fun h => ?_, hclass _, hclass _, hclass _, hclass _, rfl, fun h => ?_, fun h => ?_,
    fun h => ?_, ?_⟩
  · rw [runStatePort, h]
  · rw [runStatePort, h]
  · rw [runStatePort, h]
  · rw [totalCostPort, if_pos h, BitVec.toNat_ofNat, Nat.mod_eq_of_lt h]
  · rw [ioCostPort, if_pos h, BitVec.toNat_ofNat, Nat.mod_eq_of_lt h]
  · rw [finalReport, h]
  · rintro (h | h) <;> rw [finalReport, h] <;> rfl
end Sys2Proof.Machine
end

section
/-! PROOF. How the work of an instruction ends, in more detail than `exec_settles`: it takes its input, makes its reads, commits at
most one change (a cell written or an output handed over) and sets the pc, or it ends on the way before any commit. The next pc,
the growth of `OUT`, the counters and the run state follow from that. -/

namespace Sys2Proof.Machine

/-! ### A look at a step before its commit -/

@[simp] theorem requestsMade_nil : requestsMade [] = 0 := rfl

@[simp] theorem requestsMade_read (a : Nat) (v : Word) : requestsMade [.read a v] = if a = 0 then 0 else 1 := rfl

@[simp] theorem requestsMade_input (v : Word) : requestsMade [.input v] = 0 := rfl

/-- An access that takes no input leaves the input value among the accesses as it was. -/
theorem inputAmong_append_read (l : List Access) (a : Nat) (v : Word) : inputAmong (l ++ [.read a v]) = inputAmong l := by
  induction l with
  | nil => rfl
  | cons x l ih => cases x <;> simp [inputAmong, ih]

/-- `u` is a working state of a look at the step of `i` begun in `s` that has committed nothing: it has only read cells and taken an
input value, with at most `n` requests on the data-memory interface, each of them granted (R58, R65, R102). -/
structure Uncommitted (i : Instr) (s : State) (n : Nat) (u : State) : Prop where
  working : Working i s u
  pc : u.pc = s.pc
  acc : u.acc = s.acc
  mem : u.mem = s.mem
  out : u.out = s.out
  definedWf : AddrSet.wf s.defined = true → AddrSet.wf u.defined = true
  reads : ∀ a v, .read a v ∈ u.trace → v = s.cell a
  noCommit : ∀ x ∈ u.trace, x.isWrite = false ∧ ∀ v, x ≠ .output v
  made : requestsMade u.trace ≤ n
  granted : requestsMade u.trace ≤ s.acknowledged + s.host.dmemAcks

namespace Uncommitted

variable {i : Instr} {s u : State} {n : Nat}

theorem start (i : Instr) (s : State) : Uncommitted i s 0 s.fresh where
  working := Working.start i s
  pc := rfl
  acc := rfl
  mem := rfl
  out := rfl
  definedWf := id
  reads _ _ h := by cases h
  noCommit _ h := by cases h
  made := Nat.le_refl 0
  granted := Nat.zero_le _

theorem cell (h : Uncommitted i s n u) (a : Nat) : u.cell a = s.cell a := State.cell_congr u s h.acc h.mem a

theorem acknowledged (h : Uncommitted i s n u) : u.acknowledged = s.acknowledged := State.acknowledged_congr h.working.wait

theorem dmemAcks (h : Uncommitted i s n u) : u.host.dmemAcks = s.host.dmemAcks := by rw [h.working.host]

theorem sinkReady (h : Uncommitted i s n u) : u.host.sinkReady = s.host.sinkReady := by rw [h.working.host]

theorem mono {m : Nat} (h : Uncommitted i s n u) (hm : n ≤ m) : Uncommitted i s m u := { h with made := h.made.trans hm }

/-- The access to a cell of 1 or more is granted exactly while fewer requests have been made than are acknowledged (R58). -/
theorem granted_iff (h : Uncommitted i s n u) (a : Nat) :
    u.Granted a ↔ a = 0 ∨ requestsMade u.trace < s.acknowledged + s.host.dmemAcks := by
  rw [State.Granted, h.acknowledged, h.dmemAcks]

/-- A request that is not granted is on the interface, and all that the memory acknowledges has been asked for. -/
theorem of_not_granted (h : Uncommitted i s n u) {a : Nat} (hg : ¬ u.Granted a) :
    1 ≤ a ∧ requestsMade u.trace = s.acknowledged + s.host.dmemAcks := by
  rw [h.granted_iff] at hg
  have := h.granted
  omega

/-- A granted read, of the accumulator or of a cell, adds at most one request. -/
theorem read (h : Uncommitted i s n u) {a m : Nat} (ha : a < Config.addrLimit) (hg : u.Granted a)
    (hm : n + (if a = 0 then 0 else 1) ≤ m) : Uncommitted i s m ((u.define a).note (.read a (s.cell a))) where
  working := h.working.read a _
  pc := h.pc
  acc := h.acc
  mem := h.mem
  out := h.out
  definedWf hs := AddrSet.wfFrom_insert u.defined a 0 (h.definedWf hs) (Nat.zero_le a) ha
  reads x v hx := by
    rcases List.mem_append.1 hx with hx | hx
    · exact h.reads x v hx
    · cases List.mem_singleton.1 hx; rfl
  noCommit x hx := by
    rcases List.mem_append.1 hx with hx | hx
    · exact h.noCommit x hx
    · cases List.mem_singleton.1 hx
      exact ⟨rfl, fun v => by simp⟩
  made := by
    have := h.made
    simp only [State.note_trace, State.define_trace, requestsMade_append, requestsMade_read]
    omega
  granted := by
    have := h.granted
    rw [h.granted_iff] at hg
    simp only [State.note_trace, State.define_trace, requestsMade_append, requestsMade_read]
    split <;> omega

/-- The input transfer is no request on the data-memory interface (R121). -/
theorem takeInput (h : Uncommitted i s n u) (hi : i.opcode = 0x00) (v : Word) (rest : List Word) :
    Uncommitted i s n ((u.consumeInput rest).note (.input v)) :=
  { h with
    working := h.working.takeInput hi v rest
    reads := fun x w hx => by
      rcases List.mem_append.1 hx with hx | hx
      · exact h.reads x w hx
      · cases List.mem_singleton.1 hx
    noCommit := fun x hx => by
      rcases List.mem_append.1 hx with hx | hx
      · exact h.noCommit x hx
      · cases List.mem_singleton.1 hx
        exact ⟨rfl, fun w => by simp⟩
    made := by simpa using h.made
    granted := by simpa using h.granted }

end Uncommitted

/-- The look is past the input transfer, if `i` has one: `GET` has taken the next input value, and no other instruction has
touched the source (R120, R121). -/
structure Look (i : Instr) (s : State) (n : Nat) (u : State) : Prop extends Uncommitted i s n u where
  noInput : i.opcode ≠ 0x00 → inputAmong u.trace = none ∧ u.host.input = s.host.input
  input : i.opcode = 0x00 → ∃ v, inputAmong u.trace = some v ∧ s.nextInput = some (v, u.host.input)

namespace Look

variable {i : Instr} {s u : State} {n : Nat}

theorem start (s : State) (hi : i.opcode ≠ 0x00 := by simp [Instr.opcode]) : Look i s 0 s.fresh where
  toUncommitted := Uncommitted.start i s
  noInput _ := ⟨rfl, rfl⟩
  input h := absurd h hi

/-- `GET` starts with the transfer of the next input value. -/
theorem get (hi : i.opcode = 0x00) {v : Word} {rest : List Word} (h : s.nextInput = some (v, rest)) :
    Look i s 0 ((s.fresh.consumeInput rest).note (.input v)) where
  toUncommitted := (Uncommitted.start i s).takeInput hi v rest
  noInput hne := absurd hi hne
  input _ := ⟨v, rfl, h⟩

theorem read (h : Look i s n u) {a m : Nat} (ha : a < Config.addrLimit) (hg : u.Granted a)
    (hm : n + (if a = 0 then 0 else 1) ≤ m) : Look i s m ((u.define a).note (.read a (s.cell a))) where
  toUncommitted := h.toUncommitted.read ha hg hm
  noInput hi := by
    simpa [inputAmong_append_read] using h.noInput hi
  input hi := by
    simpa [inputAmong_append_read] using h.input hi

theorem mono {m : Nat} (h : Look i s n u) (hm : n ≤ m) : Look i s m u := { h with toUncommitted := h.toUncommitted.mono hm }

end Look

/-! ### How the work of an instruction ends -/

/-- The pc after a completed instruction (R98, R160 to R164). -/
def nextPc (i : Instr) (s : State) : Pc :=
  match i with
  | .jump k => s.pc + k.signExtend 65
  | .jpos k => if condPos s.acc = true then s.pc + k.signExtend 65 else s.pc + 1
  | .jzero k => if condZero s.acc = true then s.pc + k.signExtend 65 else s.pc + 1
  | .jneg k => if condNeg s.acc = true then s.pc + k.signExtend 65 else s.pc + 1
  | .rtrn k => (s.cell k.toNat).signExtend 65
  | .halt _ => s.pc
  | .get _ | .put _ | .load _ | .store _ | .loadi _ | .storei _ | .add _ | .sub _ | .addi _ | .subi _ | .set _ | .half _ =>
    s.pc + 1

/-- The work of `i` begun in `s` is done: after a look that committed nothing come the one commit and the new pc (R65, R102). -/
inductive Completion (i : Instr) (s : State) : State → Prop
  /-- Nothing is committed but the pc. -/
  | transfers {n : Nat} {u : State} (h : Look i s n u) (hi : i.opcode ≠ 0x11) : Completion i s { u with pc := nextPc i s }
  /-- One cell is written. -/
  | writes {n a : Nat} {u : State} (h : Look i s n u) (v : Word) (hw : writtenCell i s = some a) (ha : a < Config.addrLimit) :
    Completion i s { ((u.setCell a v).define a).note (.write a v) with pc := nextPc i s }
  /-- `PUT` hands over the value of its cell. -/
  | outputs {n : Nat} {u : State} {k : Word} (h : Look i s n u) (hi : i = .put k) :
    Completion i s { (u.emit (s.cell k.toNat)).note (.output (s.cell k.toNat)) with pc := nextPc i s }

/-- The address of a data-memory request. -/
def DmemRequest.address : DmemRequest → Nat
  | .read a | .write a _ => a

/-- The work of `i` begun in `s` waits, with the working state it holds (R103). -/
inductive Held (i : Instr) (s : State) : WaitReason → State → Prop
  /-- `GET` has no input value (R121). -/
  | input (hi : i.opcode = 0x00) (hn : s.nextInput = none) : Held i s .input s.fresh
  /-- `PUT` has read its cell, and the sink does not accept (R123). -/
  | output {u : State} {v : Word} (h : Look i s 1 u) (hi : i.opcode = 0x01) (hs : s.host.sinkReady = false) :
    Held i s (.output v) u
  /-- A request that the memory does not acknowledge (R58). -/
  | memory {u : State} {q : DmemRequest} (h : Look i s 1 u) (hq : 1 ≤ q.address ∧ q.address < Config.addrLimit)
    (hn : requestsMade u.trace = s.acknowledged + s.host.dmemAcks) : Held i s (.dataMemory q) u

/-- How the work of `i` begun in `s` may end (R103). -/
def StepEnd.EndsIn (i : Instr) (s : State) : StepEnd → Prop
  | .completes done => Completion i s done
  | .halts => i.opcode = 0x11
  | .raises kind => kind = .negativeAddress
  | .waits reason mid => Held i s reason mid
  | .stops _ => False

section Rules

variable {i : Instr} {s u : State} {n : Nat}

/-- The accumulator is read without a request (R57). -/
theorem memRead_acc_ends {f : Word → State → StepEnd} (h : Look i s n u)
    (hf : ∀ u', Look i s n u' → (f s.acc u').EndsIn i s) : (memRead 0 u f).EndsIn i s := by
  rw [memRead_acc, h.acc]
  exact hf _ (h.read (by decide) u.granted_zero (by simp))

/-- A read of a cell goes on with its value, after one more request at most, or waits for that request. -/
theorem memRead_ends {a : Nat} {f : Word → State → StepEnd} (h : Look i s n u) (hn : n ≤ 1) (ha : a < Config.addrLimit)
    (hf : ∀ u', Look i s (n + 1) u' → (f (s.cell a) u').EndsIn i s) : (memRead a u f).EndsIn i s := by
  rcases memRead_cases a u f with ⟨-, hg, e⟩ | ⟨-, hg, e⟩ | ⟨hge, -⟩
  · rw [e, h.cell a]
    exact hf _ (h.read ha hg (by split <;> omega))
  · rw [e]
    obtain ⟨ha1, hreq⟩ := h.of_not_granted hg
    exact .memory (h.mono hn) ⟨ha1, ha⟩ hreq
  · omega

/-- The last access of an instruction that writes a cell (R65). -/
theorem memWrite_ends {a : Nat} {v : Word} (h : Look i s n u) (hn : n ≤ 1) (ha : a < Config.addrLimit)
    (hw : writtenCell i s = some a) (hpc : nextPc i s = s.pc + 1) :
    (memWrite a v u fun u => .completes (advance u)).EndsIn i s := by
  rcases memWrite_cases a v u fun u => .completes (advance u) with ⟨-, -, e⟩ | ⟨-, hg, e⟩ | ⟨hge, -⟩
  · rw [e]
    have hdone := Completion.writes h v hw ha
    rwa [hpc, ← h.pc] at hdone
  · rw [e]
    obtain ⟨ha1, hreq⟩ := h.of_not_granted hg
    exact .memory (h.mono hn) ⟨ha1, ha⟩ hreq
  · omega

/-- The same of an instruction that writes the accumulator, which needs no request. -/
theorem memWrite_acc_ends {v : Word} (h : Look i s n u) (hw : writtenCell i s = some 0) (hpc : nextPc i s = s.pc + 1) :
    (memWrite 0 v u fun u => .completes (advance u)).EndsIn i s := by
  have hdone := Completion.writes h v hw (by decide)
  rwa [hpc, ← h.pc] at hdone

/-- An instruction that commits nothing but the pc. -/
theorem transfer_ends {p : Pc} (h : Look i s n u) (hp : nextPc i s = p)
    (hi : i.opcode ≠ 0x11 := by simp [Instr.opcode]) : (StepEnd.completes { u with pc := p }).EndsIn i s :=
  hp ▸ Completion.transfers h hi

theorem branch_ends {taken : Bool} {k : Word} (h : Look i s n u)
    (hp : nextPc i s = if taken = true then s.pc + k.signExtend 65 else s.pc + 1)
    (hi : i.opcode ≠ 0x11 := by simp [Instr.opcode]) :
    (StepEnd.completes (branch taken k u)).EndsIn i s := by
  rw [← h.pc] at hp
  cases taken <;> exact transfer_ends h hp hi

theorem inRead_ends {f : Word → State → StepEnd} (hi : i.opcode = 0x00)
    (hf : ∀ v u', Look i s 0 u' → (f v u').EndsIn i s) : (inRead s.fresh f).EndsIn i s := by
  rcases inRead_cases s.fresh f with ⟨hn, e⟩ | ⟨v, rest, hn, e⟩
  · rw [e]; exact .input hi hn
  · rw [e]; exact hf v _ (Look.get hi hn)

theorem checkedAddress_ends {v : Word} {f : Nat → StepEnd} (hf : v.toNat < Config.addrLimit → (f v.toNat).EndsIn i s) :
    (checkedAddress v f).EndsIn i s := by
  rcases checkedAddress_cases v f with ⟨-, hv, e⟩ | ⟨-, e⟩
  · rw [e]; exact hf hv
  · rw [e]; rfl

/-- An indirect operand is one read of the pointer cell, whose value is then an address inside the space (R94). -/
theorem indirectOperand_ends {k : Word} {f : Nat → State → StepEnd}
    (hf : (s.cell k.toNat).toNat < Config.addrLimit → ∀ u, Look i s 1 u → (f (s.cell k.toNat).toNat u).EndsIn i s)
    (hi : i.opcode ≠ 0x00 := by simp [Instr.opcode]) :
    (indirectOperand k s.fresh f).EndsIn i s := by
  unfold indirectOperand addressOperand
  refine checkedAddress_ends fun hk => memRead_ends (Look.start s hi) (by omega) hk fun u hu => ?_
  exact checkedAddress_ends fun he => hf he u hu

end Rules

/-- Settling is all that `perform` adds to the work of a meaning (R91, R102). -/
theorem perform_ends {i : Instr} {s : State} {work : State → StepEnd} (h : (work s.fresh).EndsIn i s) :
    ∃ e, perform i s work = settle i s e ∧ e.EndsIn i s :=
  ⟨_, rfl, h⟩

/-- Every instruction settles a work that ends in one of these ways (R65, R103). -/
theorem exec_ends (i : Instr) (s : State) : ∃ e, exec i s = settle i s e ∧ e.EndsIn i s := by
  cases i <;> unfold exec <;> refine perform_ends ?_
  case get k =>
    refine checkedAddress_ends fun hk => inRead_ends rfl fun v u h => ?_
    exact memWrite_ends h (by omega) hk rfl rfl
  case put k =>
    refine checkedAddress_ends fun hk => memRead_ends (Look.start s) (by omega) hk fun u h => ?_
    rcases outWrite_cases (s.cell k.toNat) u (fun u => .completes (advance u)) with ⟨-, e⟩ | ⟨hs, e⟩
    · rw [e]
      have hdone := Completion.outputs h rfl
      rwa [nextPc, ← h.pc] at hdone
    · rw [e]
      exact .output h rfl (h.sinkReady ▸ hs)
  case load k =>
    refine checkedAddress_ends fun hk => memRead_ends (Look.start s) (by omega) hk fun u h => ?_
    exact memWrite_acc_ends h rfl rfl
  case store k =>
    refine checkedAddress_ends fun hk => memRead_acc_ends (Look.start s) fun u h => ?_
    exact memWrite_ends h (by omega) hk rfl rfl
  case loadi k =>
    refine indirectOperand_ends fun he u h => memRead_ends h (by omega) he fun u h => ?_
    exact memWrite_acc_ends h rfl rfl
  case storei k =>
    refine indirectOperand_ends fun he u h => memRead_acc_ends h fun u h => ?_
    exact memWrite_ends h (by omega) he rfl rfl
  case add k | sub k =>
    refine checkedAddress_ends fun hk => memRead_acc_ends (Look.start s) fun u h => ?_
    exact memRead_ends h (by omega) hk fun u h => memWrite_acc_ends h rfl rfl
  case addi k | subi k =>
    refine indirectOperand_ends fun he u h => memRead_ends h (by omega) he fun u h => ?_
    exact memRead_acc_ends h fun u h => memWrite_acc_ends h rfl rfl
  case set k => exact memWrite_acc_ends (Look.start s) rfl rfl
  case half k =>
    refine checkedAddress_ends fun _ => memRead_acc_ends (Look.start s) fun u h => ?_
    exact memWrite_acc_ends h rfl rfl
  case jump k => exact transfer_ends (Look.start s) rfl
  case jpos k | jzero k | jneg k =>
    exact memRead_acc_ends (Look.start s) fun u h => branch_ends h rfl
  case rtrn k =>
    refine checkedAddress_ends fun hk => memRead_ends (Look.start s) (by omega) hk fun u h => ?_
    exact transfer_ends h rfl
  case halt k => rfl

/-- Everything an instruction can answer as a next state, with what it committed or holds. -/
theorem exec_next_ends {i : Instr} {s t : State} (h : exec i s = .next t) :
    (∃ done, Completion i s done ∧ t = retire i s done) ∨ (i.opcode = 0x11 ∧ t = haltRun s) ∨
    t = raiseFatal .negativeAddress s ∨ (∃ reason mid, Held i s reason mid ∧ t = holdWait i reason s mid) := by
  obtain ⟨e, he, hp⟩ := exec_ends i s
  rcases settle_next (he ▸ h) with ⟨done, rfl, ht⟩ | ⟨rfl, ht⟩ | ⟨kind, rfl, ht⟩ | ⟨reason, mid, rfl, ht⟩
  · exact .inl ⟨done, hp, ht⟩
  · exact .inr (.inl ⟨hp, ht⟩)
  · cases hp; exact .inr (.inr (.inl ht))
  · exact .inr (.inr (.inr ⟨reason, mid, hp, ht⟩))

/-! ### What a completed work is -/

namespace Completion

variable {i : Instr} {s done : State}

theorem working (h : Completion i s done) : Working i s done := by
  cases h with
  | transfers h => exact h.working.setPc _
  | writes h v hw => exact (h.working.write hw v).setPc _
  | outputs h hi => exact (h.working.handOver (hi ▸ rfl) _).setPc _

theorem pc (h : Completion i s done) : done.pc = nextPc i s := by
  cases h <;> rfl

theorem opcode_ne_halt (h : Completion i s done) : i.opcode ≠ 0x11 := by
  cases h with
  | transfers h hi => exact hi
  | writes h v hw => intro hi; cases i <;> simp [Instr.opcode, writtenCell] at hi hw
  | outputs h hi => subst hi; simp [Instr.opcode]

/-- Only a `PUT` hands over a value, that of its cell (R122). -/
theorem out (h : Completion i s done) :
    done.out = s.out ∨ ∃ k, i = .put k ∧ done.out = s.out ++ [s.cell k.toNat] := by
  cases h with
  | transfers h => exact .inl h.out
  | writes h => exact .inl h.out
  | outputs h hi => exact .inr ⟨_, hi, congrArg (· ++ [_]) h.out⟩

end Completion

/-! ### What a waiting work is -/

/-- A waiting work has taken its input, if it has one, or is a `GET` that has not begun. -/
theorem Held.look {i : Instr} {s mid : State} {reason : WaitReason} (h : Held i s reason mid) :
    mid = s.fresh ∨ Look i s 1 mid := by
  cases h with
  | input => exact .inl rfl
  | output h => exact .inr h
  | memory h => exact .inr h

/-- It has committed nothing, and has had at most one request acknowledged (R65, R102). -/
theorem Held.uncommitted {i : Instr} {s mid : State} {reason : WaitReason} (h : Held i s reason mid) : Uncommitted i s 1 mid := by
  rcases h.look with rfl | hlook
  · exact (Uncommitted.start i s).mono (by omega)
  · exact hlook.toUncommitted

/-! ### The next pc -/

/-- A sum that fits 65 bits is exact (R22). -/
theorem toInt_add_of_fits {p q : Pc} (hlow : -2 ^ 64 ≤ p.toInt + q.toInt) (hhigh : p.toInt + q.toInt < 2 ^ 64) :
    (p + q).toInt = p.toInt + q.toInt := by
  rw [BitVec.toInt_add]
  exact Int.bmod_eq_of_le (by omega) (by omega)

/-- A 64-bit offset or index is read as it stands in 65 bits (R98). -/
theorem toInt_signExtend_pc (k : Word) : (k.signExtend 65).toInt = k.toInt :=
  BitVec.toInt_signExtend_of_le (by omega)

section NextPc

variable {s : State} (hlow : 0 ≤ s.pc.toInt) (hhigh : s.pc.toInt < 2 ^ 63)

include hlow hhigh

theorem toInt_pc_succ : (s.pc + 1).toInt = s.pc.toInt + 1 :=
  toInt_add_of_fits (q := 1) (by simp; omega) (by simp; omega)

theorem toInt_pc_add_offset (k : Word) : (s.pc + k.signExtend 65).toInt = s.pc.toInt + k.toInt := by
  have hk := toInt_signExtend_pc k
  have := k.le_toInt
  have := k.toInt_lt
  rw [toInt_add_of_fits (by omega) (by omega), hk]

/-- The next pc stays in the range of R22. -/
theorem nextPc_range (i : Instr) : -2 ^ 63 ≤ (nextPc i s).toInt ∧ (nextPc i s).toInt ≤ 2 ^ 64 - 2 := by
  have hsucc := toInt_pc_succ hlow hhigh
  have hoff (k : Word) :
      -2 ^ 63 ≤ (s.pc + k.signExtend 65).toInt ∧ (s.pc + k.signExtend 65).toInt ≤ 2 ^ 64 - 2 := by
    have hk := toInt_pc_add_offset hlow hhigh k
    have := k.le_toInt
    have := k.toInt_lt
    omega
  cases i with
  | jump k => exact hoff k
  | jpos k | jzero k | jneg k =>
    unfold nextPc
    dsimp only
    split
    · exact hoff k
    · omega
  | rtrn k =>
    have hk := toInt_signExtend_pc (s.cell k.toNat)
    have := (s.cell k.toNat).le_toInt
    have := (s.cell k.toNat).toInt_lt
    unfold nextPc
    dsimp only
    omega
  | halt k => unfold nextPc; dsimp only; omega
  | _ => unfold nextPc; dsimp only; omega

end NextPc

/-- Settles O50: only a completed step moves the pc, and it moves it to `nextPc`. -/
theorem nextPcIsExact : Obligations.NextPcIsExact := by
  intro i s t hrs hlow hhigh h
  rcases exec_next_ends h with ⟨done, c, rfl⟩ | ⟨-, rfl⟩ | rfl | ⟨reason, mid, -, rfl⟩
  · have hrun : done.rs = .running := c.working.rs.trans hrs
    rw [retire_pc, c.pc, retire_wait, retire_rs]
    refine ⟨nextPc_range hlow hhigh i, fun hx => by simp [hrun] at hx, fun _ _ => ?_⟩
    have hsucc := toInt_pc_succ hlow hhigh
    have hoff := toInt_pc_add_offset hlow hhigh
    cases i with
    | jump k => exact hoff k
    | jpos k | jzero k | jneg k =>
      simp only [nextPc, condPos, condZero, condNeg, decide_eq_true_eq]
      split
      · exact hoff k
      · exact hsucc
    | rtrn k => exact toInt_signExtend_pc _
    | halt k => rfl
    | _ => exact hsucc
  · exact ⟨by rw [haltRun_pc]; omega, fun _ => rfl, fun hx => by cases hx⟩
  · exact ⟨by rw [raiseFatal_pc]; omega, fun _ => rfl, fun hx => by cases hx⟩
  · exact ⟨by rw [holdWait_pc]; omega, fun _ => rfl, fun _ hx => by cases hx⟩

/-! ### What a Running step can do -/

/-- The instruction at the pc of `s` is `i` (R91). -/
def Executes (s : State) (i : Instr) : Prop := ∃ w, fetch s = some w ∧ decode w = .ok i

/-- The pc of a fitting program's instruction lies in `0 .. 2^63−1` (R22). -/
theorem pc_range_of_fetch {s : State} {w : InsnWord} (hlen : s.host.program.length ≤ Config.progLenMax) (h : fetch s = some w) :
    0 ≤ s.pc.toInt ∧ s.pc.toInt < 2 ^ 63 := by
  obtain ⟨hlow, hlt, -⟩ := fetch_eq_some h
  have := BitVec.toInt_eq_toNat_cond s.pc
  unfold Config.progLenMax at hlen
  split at this <;> omega

/-- `kind` is a fault class that a step of `s` can raise: InvalidProgramCounter where the fetch finds no word, another where it
finds one (R92, R182 to R184). -/
structure Raises (s : State) (kind : FatalKind) : Prop where
  invalid : kind = .invalidProgramCounter → fetch s = none
  other : kind = .negativeAddress ∨ kind = .unknownOpcode → (fetch s).isSome = true

/-- The four ends of a Running step (R103). -/
theorem running_step_ends {s t : State} (hrst : s.host.rst = false) (hrs : s.rs = .running) (h : step s = .next t) :
    (∃ i done, Executes s i ∧ Completion i s done ∧ t = retire i s done) ∨
    (∃ i, Executes s i ∧ i.opcode = 0x11 ∧ t = haltRun s) ∨
    (∃ kind, Raises s kind ∧ t = raiseFatal kind s) ∨
    (∃ i reason mid, Executes s i ∧ Held i s reason mid ∧ t = holdWait i reason s mid) := by
  rcases step_next h with ⟨hr, -⟩ | ⟨-, he, -⟩ | ⟨-, -, -, hw⟩
  · simp [hrst] at hr
  · simp [State.Ended, hrs] at he
  · rcases hw with ⟨hf, rfl⟩ | ⟨w, i, hf, hd, hx⟩ | ⟨w, op, k, hf, -, hx⟩
    · exact .inr (.inr (.inl ⟨_, ⟨fun _ => hf, fun hk => by simp at hk⟩, rfl⟩))
    · have hi : Executes s i := ⟨w, hf, hd⟩
      have hneg : Raises s .negativeAddress := ⟨fun hk => by simp at hk, fun _ => by simp [hf]⟩
      rcases exec_next_ends hx with ⟨done, c, ht⟩ | ⟨hop, ht⟩ | ht | ⟨reason, mid, hh, ht⟩
      · exact .inl ⟨i, done, hi, c, ht⟩
      · exact .inr (.inl ⟨i, hi, hop, ht⟩)
      · exact .inr (.inr (.inl ⟨_, hneg, ht⟩))
      · exact .inr (.inr (.inr ⟨i, reason, mid, hi, hh, ht⟩))
    · obtain ⟨kind, hk, rfl⟩ := execUnknown_next hx
      exact .inr (.inr (.inl ⟨kind, ⟨by rcases hk with rfl | rfl <;> simp, fun _ => by simp [hf]⟩, rfl⟩))

/-- Without reset a step of an ended run answers the same state, so only a Running step changes anything (R90). -/
theorem step_ended_or_running {s t : State} (hrst : s.host.rst = false) (h : step s = .next t) :
    (s.Ended ∧ t = s) ∨ s.rs = .running := by
  rcases step_next h with ⟨hr, -⟩ | ⟨-, he, ht⟩ | ⟨-, hrs, -⟩
  · simp [hrst] at hr
  · exact .inl ⟨he, ht⟩
  · exact .inr hrs

/-- Settles O42: only a completed step is charged, and it costs at least 1. -/
theorem countersNeverDecrease : Obligations.CountersNeverDecrease := by
  intro s t hrst h
  rcases step_ended_or_running hrst h with ⟨he, rfl⟩ | hrs
  · exact ⟨Nat.le_refl _, Nat.le_refl _, fun hrs => by simp [State.Ended, hrs] at he, fun _ _ => ⟨rfl, rfl⟩⟩
  rcases running_step_ends hrst hrs h with ⟨i, done, ⟨w, hf, hd⟩, c, rfl⟩ | ⟨i, -, -, rfl⟩ | ⟨kind, -, rfl⟩ |
      ⟨i, reason, mid, -, -, rfl⟩
  · have w' := c.working
    refine ⟨?_, ?_, fun _ _ _ => ⟨w, i, hf, hd, ?_, cost_pos c.opcode_ne_halt⟩, fun _ hne => absurd (w'.rs.trans hrs) hne⟩
    · rw [retire_tc, w'.tc]; omega
    · rw [retire_ic, w'.ic]; omega
    · rw [retire_tc, w'.tc]
  · exact ⟨Nat.le_refl _, Nat.le_refl _, fun _ hx => (by cases hx), fun _ _ => ⟨rfl, rfl⟩⟩
  · exact ⟨Nat.le_refl _, Nat.le_refl _, fun _ hx => (by cases hx), fun _ _ => ⟨rfl, rfl⟩⟩
  · exact ⟨Nat.le_refl _, Nat.le_refl _, fun _ _ hx => (by cases hx), fun _ _ => ⟨rfl, rfl⟩⟩

/-- Settles O43, from the four ends of a Running step. -/
theorem runStateTransitions : Obligations.RunStateTransitions := by
  intro s t hrst h
  rcases step_ended_or_running hrst h with ⟨-, rfl⟩ | hrs
  · exact .inl rfl
  rcases running_step_ends hrst hrs h with ⟨i, done, -, c, rfl⟩ | ⟨i, ⟨w, hf, hd⟩, hop, rfl⟩ | ⟨kind, -, rfl⟩ |
      ⟨i, reason, mid, -, -, rfl⟩
  · exact .inl c.working.rs
  · exact .inr (.inl ⟨hrs, rfl, w, hf, (opcodeField_of_decode hd).trans hop⟩)
  · exact .inr (.inr ⟨hrs, rfl, rfl⟩)
  · exact .inl rfl

/-- Settles O45: of the four ends only completion commits an output, and only that of a `PUT`. -/
theorem outputGrowsOnlyByPut : Obligations.OutputGrowsOnlyByPut := by
  intro s t hrst h
  rcases step_ended_or_running hrst h with ⟨-, rfl⟩ | hrs
  · exact .inl rfl
  rcases running_step_ends hrst hrs h with ⟨i, done, ⟨w, hf, hd⟩, c, rfl⟩ | ⟨i, -, -, rfl⟩ | ⟨kind, -, rfl⟩ |
      ⟨i, reason, mid, -, -, rfl⟩
  · rcases c.out with hout | ⟨k, rfl, hout⟩
    · exact .inl hout
    · exact .inr ⟨w, k, hf, hd, rfl, c.working.rs.trans hrs, hout⟩
  · exact .inl rfl
  · exact .inl rfl
  · exact .inl rfl
end Sys2Proof.Machine
end

section
/-! PROOF. The invariant: each way a step can end keeps it. -/

namespace Sys2Proof.Machine

/-! ### Memory and `DEF` after a completed work -/

/-- The memory is canonical, `DEF` ascends, and every cell that does not read 0 is in `DEF` (R33, R51, R55). -/
structure Sound (s : State) : Prop where
  memory : Memory.wf s.mem = true
  definedAscending : AddrSet.wf s.defined = true
  nonzeroDefined : ∀ a, s.cell a ≠ 0 → a ∈ s.defined

theorem Uncommitted.sound {i : Instr} {s u : State} {n : Nat} (h : Uncommitted i s n u) (hs : Sound s) : Sound u where
  memory := h.mem ▸ hs.memory
  definedAscending := h.definedWf hs.definedAscending
  nonzeroDefined a ha := (h.working.defined a).2 (.inl (hs.nonzeroDefined a (h.cell a ▸ ha)))

theorem Sound.write {s : State} (h : Sound s) {a : Nat} (ha : a < Config.addrLimit) (v : Word) :
    Sound (((s.setCell a v).define a).note (.write a v)) where
  memory := s.setCell_memory_wf a v h.memory ha
  definedAscending := AddrSet.wfFrom_insert s.defined a 0 h.definedAscending (Nat.zero_le a) ha
  nonzeroDefined x hx := by
    rw [State.cell_note, State.cell_define] at hx
    simp only [State.note_defined, State.define_defined, State.setCell_defined, AddrSet.mem_insert]
    by_cases hxa : x = a
    · exact .inl hxa
    · rw [State.cell_setCell_other s a x v hxa] at hx
      exact .inr (h.nonzeroDefined x hx)

theorem Completion.sound {i : Instr} {s done : State} (h : Completion i s done) (hs : Sound s) : Sound done := by
  cases h with
  | transfers h => exact { h.sound hs with }
  | writes h v hw ha => exact { (h.sound hs).write ha v with }
  | outputs h => exact { h.sound hs with }

theorem State.Inv.sound {s : State} (h : s.Inv) : Sound s := ⟨h.memory, h.definedAscending, h.nonzeroDefined⟩

/-- A pending request is on the data-memory interface (R57). -/
theorem Held.request_address {i : Instr} {s mid : State} {q : DmemRequest} (h : Held i s (.dataMemory q) mid) :
    1 ≤ q.address ∧ q.address < Config.addrLimit := by
  cases h; assumption

/-! ### Each end of a step keeps the invariant -/

section Ends

variable {s : State} (hinv : s.Inv) (hrs : s.rs = .running)

include hinv hrs

/-- While `RS` is Running there is no fault record (R31). -/
theorem noFault_of_running : s.fc = none ∧ s.fpc = 0 := hinv.noFaultRecord (by simp [hrs])

theorem retire_inv {i : Instr} {done : State} (hi : Executes s i) (c : Completion i s done) : (retire i s done).Inv := by
  have w := c.working
  have hsound := c.sound hinv.sound
  obtain ⟨hfc, hfpc⟩ := noFault_of_running hinv hrs
  obtain ⟨word, hf, -⟩ := hi
  obtain ⟨hlow, hhigh⟩ := pc_range_of_fetch hinv.programFits hf
  have hpc := c.pc ▸ nextPc_range hlow hhigh i
  have hrun : done.rs = .running := w.rs.trans hrs
  have hnone : done.fc = none := w.fc.trans hfc
  have hic : (retire i s done).ic = s.ic + ioCost i := by rw [retire_ic, w.ic]
  exact { WaitInv.of_none (retire_wait i s done) with
    memory := hsound.memory
    definedAscending := hsound.definedAscending
    nonzeroDefined := hsound.nonzeroDefined
    programFits := by rw [retire_host, w.host]; exact hinv.programFits
    pcLow := hpc.1
    pcHigh := hpc.2
    ioWithinTotal := by
      rw [hic, retire_tc, w.tc]
      exact Nat.add_le_add hinv.ioWithinTotal (ioCost_le_cost i)
    ioHundreds := by rw [hic, Nat.add_mod, hinv.ioHundreds, ioCost_mod_hundred]
    outputCharged := by
      have := hinv.outputCharged
      rw [hic, retire_out]
      rcases c.out with hout | ⟨k, rfl, hout⟩
      · rw [hout]; omega
      · rw [hout, List.length_append, List.length_singleton, ioCost]; omega
    noFaultRecord := fun _ => ⟨hnone, w.fpc.trans hfpc⟩
    faultRecord := fun h => by simp [hrun] at h
    invalidPc := fun h => by simp [hnone] at h
    faultAtInstr := fun h => by simp [hnone] at h
    haltedAtHalt := fun h => by simp [hrun] at h
    endedQuiet := fun h => by simp [State.Ended, hrun] at h
    snapshotTrue := fun d h => by cases h; exact ⟨rfl, rfl⟩ }

theorem haltRun_inv {i : Instr} (hi : Executes s i) (hop : i.opcode = 0x11) : (haltRun s).Inv := by
  obtain ⟨hfc, hfpc⟩ := noFault_of_running hinv hrs
  obtain ⟨word, hf, hd⟩ := hi
  exact { WaitInv.of_none (haltRun_wait s), hinv with
    noFaultRecord := fun _ => ⟨hfc, hfpc⟩
    faultRecord := fun h => by cases h
    haltedAtHalt := fun _ => by
      rw [← fetch_congr (haltRun_pc s).symm rfl, hf, Option.map_some, opcodeField_of_decode hd, hop]
    endedQuiet := fun _ => ⟨rfl, rfl⟩
    snapshotTrue := fun _ h => by cases h }

omit hrs in
theorem raiseFatal_inv {kind : FatalKind} (hk : Raises s kind) : (raiseFatal kind s).Inv :=
  { WaitInv.of_none (raiseFatal_wait kind s), hinv with
    noFaultRecord := fun h => absurd rfl h
    faultRecord := fun _ => ⟨rfl, rfl⟩
    invalidPc := fun h => hk.invalid (Option.some.inj h)
    faultAtInstr := fun h => hk.other (by simpa using h)
    haltedAtHalt := fun h => by cases h
    endedQuiet := fun _ => ⟨rfl, rfl⟩
    snapshotTrue := fun _ h => by cases h }

theorem holdWait_inv {i : Instr} {reason : WaitReason} {mid : State} (hi : Executes s i) (h : Held i s reason mid) :
    (holdWait i reason s mid).Inv := by
  have u := h.uncommitted
  obtain ⟨hfc, -⟩ := noFault_of_running hinv hrs
  have hprog : mid.host.program = s.host.program := by rw [u.working.host]
  exact { hinv with
    programFits := by rw [holdWait_host, hprog]; exact hinv.programFits
    invalidPc := fun hx => by rw [holdWait_fc, hfc] at hx; cases hx
    faultAtInstr := fun hx => by rw [holdWait_fc, hfc] at hx; simp at hx
    haltedAtHalt := fun hx => by rw [holdWait_rs, hrs] at hx; cases hx
    endedQuiet := fun hx => by simp [State.Ended, hrs] at hx
    pendingRead := fun w a hw hr => by cases hw; cases hr; exact h.request_address
    pendingWrite := fun w a v hw hr => by cases hw; cases hr; exact h.request_address
    waitInstr := fun w hw => by
      cases hw
      rw [fetch_congr (t := s) (holdWait_pc ..) hprog]
      exact hi
    waitReads := fun w a v hw hx => by cases hw; exact u.reads a v hx
    waitUncommitted := fun w hw => by cases hw; exact u.noCommit
    waitRequests := u.made
    snapshotTrue := fun _ hx => by cases hx }

end Ends

/-- Settles O17: reset, an ended run that is left alone, and the four ends of a Running step. -/
theorem stepKeepsTheInvariant : Obligations.StepKeepsTheInvariant := by
  intro s t hinv h
  cases hrst : s.host.rst with
  | true =>
    rw [step_of_reset hrst] at h
    cases h
    exact applyReset_inv hinv.programFits
  | false =>
    rcases step_ended_or_running hrst h with ⟨-, rfl⟩ | hrs
    · exact hinv
    rcases running_step_ends hrst hrs h with ⟨i, done, hi, c, rfl⟩ | ⟨i, hi, hop, rfl⟩ | ⟨kind, hk, rfl⟩ |
        ⟨i, reason, mid, hi, hheld, rfl⟩
    · exact retire_inv hinv hrs hi c
    · exact haltRun_inv hinv hrs hi hop
    · exact raiseFatal_inv hinv hk
    · exact holdWait_inv hinv hrs hi hheld
end Sys2Proof.Machine
end

section
/-! PROOF. Two looks at an instruction that agree on what execution depends on end in the same way. Hence the counters, the fault
record, `DEF`, `OUT`, the debug port and the trace never influence execution, and a waiting step goes on waiting. -/

namespace Sys2Proof.Machine

/-! ### Two working states side by side -/

/-- `s` and `t` agree on all that executing `i` depends on: the run state, the pc, the memory with the accumulator, the requests
already acknowledged, and what the host drives, where `GET` asks only for the same next input value (R26, R33, R195). -/
structure SameStart (i : Instr) (s t : State) : Prop where
  rs : s.rs = t.rs
  pc : s.pc = t.pc
  acc : s.acc = t.acc
  mem : s.mem = t.mem
  acknowledged : s.acknowledged = t.acknowledged
  host : t.host = { s.host with input := t.host.input }
  input : i.opcode ≠ 0x00 → s.host.input = t.host.input
  next : i.opcode = 0x00 → s.nextInput = t.nextInput

/-- The working states `u` begun in `s` and `u'` begun in `t` agree on what execution depends on and on the accesses made, and
have added the same to the counters and to `OUT`. -/
structure SideBySide (s t u u' : State) : Prop where
  rs : u.rs = u'.rs
  kept : u.rs = s.rs
  pc : u.pc = u'.pc
  acc : u.acc = u'.acc
  mem : u.mem = u'.mem
  acknowledged : u.acknowledged = u'.acknowledged
  host : u.host = u'.host
  trace : u.trace = u'.trace
  tc : u.tc + t.tc = u'.tc + s.tc
  ic : u.ic + t.ic = u'.ic + s.ic
  out : ∃ vs, u.out = s.out ++ vs ∧ u'.out = t.out ++ vs

namespace SideBySide

variable {i : Instr} {s t u u' : State}

theorem of_input (h : SameStart i s t) (hin : s.host.input = t.host.input) : SideBySide s t s.fresh t.fresh :=
  { h with
    kept := rfl
    host := by rw [State.fresh_host, State.fresh_host, h.host, ← hin]
    trace := rfl
    tc := Nat.add_comm ..
    ic := Nat.add_comm ..
    out := ⟨[], by simp, by simp⟩ }

theorem start (h : SameStart i s t) (hi : i.opcode ≠ 0x00 := by simp [Instr.opcode]) : SideBySide s t s.fresh t.fresh :=
  of_input h (h.input hi)

/-- After the input transfer both sources offer the same. -/
theorem takeInput (h : SameStart i s t) (v : Word) (rest : List Word) :
    SideBySide s t ((s.fresh.consumeInput rest).note (.input v)) ((t.fresh.consumeInput rest).note (.input v)) :=
  { h with
    kept := rfl
    host := by simp only [State.note_host, State.consumeInput_host, State.fresh_host]; rw [h.host]
    trace := rfl
    tc := Nat.add_comm ..
    ic := Nat.add_comm ..
    out := ⟨[], by simp, by simp⟩ }

theorem cell (h : SideBySide s t u u') (a : Nat) : u.cell a = u'.cell a := State.cell_congr u u' h.acc h.mem a

theorem granted (h : SideBySide s t u u') (a : Nat) : u.Granted a ↔ u'.Granted a := by
  rw [State.Granted, State.Granted, h.trace, h.acknowledged, h.host]

theorem read (h : SideBySide s t u u') (a : Nat) (v : Word) :
    SideBySide s t ((u.define a).note (.read a v)) ((u'.define a).note (.read a v)) :=
  { h with trace := congrArg (· ++ _) h.trace }

theorem write (h : SideBySide s t u u') (a : Nat) (v : Word) :
    SideBySide s t (((u.setCell a v).define a).note (.write a v)) (((u'.setCell a v).define a).note (.write a v)) :=
  { h with
    acc := by simp [h.acc]
    mem := by simp [h.mem]
    trace := congrArg (· ++ _) h.trace }

theorem handOver (h : SideBySide s t u u') (v : Word) :
    SideBySide s t ((u.emit v).note (.output v)) ((u'.emit v).note (.output v)) :=
  { h with
    trace := congrArg (· ++ _) h.trace
    out := by
      obtain ⟨vs, hu, hu'⟩ := h.out
      exact ⟨vs ++ [v], by simp [hu], by simp [hu']⟩ }

theorem setPc (h : SideBySide s t u u') {p p' : Pc} (hp : p = p') :
    SideBySide s t { u with pc := p } { u' with pc := p' } :=
  { h with pc := hp }

theorem advance (h : SideBySide s t u u') : SideBySide s t (advance u) (advance u') := h.setPc (by rw [h.pc])

theorem jumpBy (h : SideBySide s t u u') (k : Word) : SideBySide s t (jumpBy k u) (jumpBy k u') := h.setPc (by rw [h.pc])

theorem branch (h : SideBySide s t u u') (taken : Bool) (k : Word) :
    SideBySide s t (branch taken k u) (branch taken k u') := by
  cases taken
  · exact h.advance
  · exact h.jumpBy k

end SideBySide

/-- Two works end in the same way: same end, same fault or wait, working states side by side. -/
inductive StepEnd.EndAlike (s t : State) : StepEnd → StepEnd → Prop
  | completes {u u' : State} (h : SideBySide s t u u') : EndAlike s t (.completes u) (.completes u')
  | halts : EndAlike s t .halts .halts
  | raises (kind : FatalKind) : EndAlike s t (.raises kind) (.raises kind)
  | waits {u u' : State} (reason : WaitReason) (h : SideBySide s t u u') : EndAlike s t (.waits reason u) (.waits reason u')
  | stops (reason : Fault) : EndAlike s t (.stops reason) (.stops reason)

section Rules

variable {i : Instr} {s t u u' : State}

theorem memRead_alike {a : Nat} {f f' : Word → State → StepEnd} (h : SideBySide s t u u')
    (hf : ∀ v x x', SideBySide s t x x' → (f v x).EndAlike s t (f' v x')) :
    (memRead a u f).EndAlike s t (memRead a u' f') := by
  simp only [memRead, h.granted a, h.cell a]
  split
  · split
    · exact hf _ _ _ (h.read a _)
    · exact .waits _ h
  · exact .stops _

theorem memWrite_alike {a : Nat} {v : Word} {f : State → StepEnd} (h : SideBySide s t u u')
    (hf : ∀ x x', SideBySide s t x x' → (f x).EndAlike s t (f x')) :
    (memWrite a v u f).EndAlike s t (memWrite a v u' f) := by
  simp only [memWrite, h.granted a]
  split
  · split
    · exact hf _ _ (h.write a v)
    · exact .waits _ h
  · exact .stops _

theorem outWrite_alike {v : Word} {f : State → StepEnd} (h : SideBySide s t u u')
    (hf : ∀ x x', SideBySide s t x x' → (f x).EndAlike s t (f x')) :
    (outWrite v u f).EndAlike s t (outWrite v u' f) := by
  simp only [outWrite, h.host]
  split
  · exact hf _ _ (h.handOver v)
  · exact .waits _ h

/-- `GET` starts with the input transfer, after which the two sources offer the same. -/
theorem inRead_alike {f : Word → State → StepEnd} (h : SameStart i s t) (hi : i.opcode = 0x00)
    (hf : ∀ v x x', SideBySide s t x x' → (f v x).EndAlike s t (f v x')) :
    (inRead s.fresh f).EndAlike s t (inRead t.fresh f) := by
  have hnext : s.fresh.nextInput = t.fresh.nextInput := h.next hi
  rcases inRead_cases s.fresh f with ⟨hn, e⟩ | ⟨v, rest, hn, e⟩
  · have hs : s.host.input = [] := (State.nextInput_eq_none.1 hn).2
    have ht : t.host.input = [] := (State.nextInput_eq_none.1 (hnext.symm.trans hn)).2
    rw [e, inRead_none (hnext.symm.trans hn)]
    exact .waits _ (.of_input h (hs.trans ht.symm))
  · rw [e, inRead_some (hnext.symm.trans hn)]
    exact hf v _ _ (.takeInput h v rest)

theorem checkedAddress_alike {v : Word} {f f' : Nat → StepEnd} (hf : ∀ a, (f a).EndAlike s t (f' a)) :
    (checkedAddress v f).EndAlike s t (checkedAddress v f') := by
  unfold checkedAddress
  split
  · exact .raises _
  · exact hf _

theorem indirectOperand_alike {k : Word} {f : Nat → State → StepEnd} (h : SideBySide s t u u')
    (hf : ∀ a x x', SideBySide s t x x' → (f a x).EndAlike s t (f a x')) :
    (indirectOperand k u f).EndAlike s t (indirectOperand k u' f) := by
  unfold indirectOperand addressOperand
  exact checkedAddress_alike fun _ => memRead_alike h fun _ x x' hx => checkedAddress_alike fun a => hf a x x' hx

end Rules

/-- Settling is all that `perform` adds to the work of a meaning (R91, R102). -/
theorem perform_alike {i : Instr} {s t : State} {work : State → StepEnd}
    (h : (work s.fresh).EndAlike s t (work t.fresh)) :
    ∃ e e', perform i s work = settle i s e ∧ perform i t work = settle i t e' ∧ e.EndAlike s t e' :=
  ⟨_, _, rfl, rfl, h⟩

/-- Every instruction ends in the same way from two states that agree on what it depends on (R26, R33, R195). -/
theorem exec_alike {i : Instr} {s t : State} (h : SameStart i s t) :
    ∃ e e', exec i s = settle i s e ∧ exec i t = settle i t e' ∧ e.EndAlike s t e' := by
  cases i <;> unfold exec <;> refine perform_alike ?_
  case get k =>
    refine checkedAddress_alike fun a => inRead_alike h rfl fun v u u' h => ?_
    exact memWrite_alike h fun u u' h => .completes h.advance
  case put k =>
    refine checkedAddress_alike fun a => memRead_alike (.start h) fun v u u' h => ?_
    exact outWrite_alike h fun u u' h => .completes h.advance
  case load k | store k | half k =>
    refine checkedAddress_alike fun a => memRead_alike (.start h) fun v u u' h => ?_
    exact memWrite_alike h fun u u' h => .completes h.advance
  case loadi k | storei k =>
    refine indirectOperand_alike (.start h) fun a u u' h => memRead_alike h fun v u u' h => ?_
    exact memWrite_alike h fun u u' h => .completes h.advance
  case add k | sub k =>
    refine checkedAddress_alike fun a => memRead_alike (.start h) fun v u u' h => memRead_alike h fun w u u' h => ?_
    exact memWrite_alike h fun u u' h => .completes h.advance
  case addi k | subi k =>
    refine indirectOperand_alike (.start h) fun a u u' h => memRead_alike h fun v u u' h => memRead_alike h fun w u u' h => ?_
    exact memWrite_alike h fun u u' h => .completes h.advance
  case set k => exact memWrite_alike (.start h) fun u u' h => .completes h.advance
  case jump k => exact .completes ((SideBySide.start h).jumpBy k)
  case jpos k | jzero k | jneg k => exact memRead_alike (.start h) fun v u u' h => .completes (h.branch ..)
  case rtrn k =>
    exact checkedAddress_alike fun a => memRead_alike (.start h) fun v u u' h => .completes (h.setPc rfl)
  case halt k => exact .halts

/-! ### The observers -/

/-- The steps from `s` to `s'` and from `t` to `t'` leave the same core, add the same to the counters and to `OUT`, and take the
same fault, if `s` was Running. -/
structure SameGain (s t s' t' : State) : Prop where
  core : s'.SameCore t'
  tc : s'.tc + t.tc = t'.tc + s.tc
  ic : s'.ic + t.ic = t'.ic + s.ic
  out : ∃ vs, s'.out = s.out ++ vs ∧ t'.out = t.out ++ vs
  fault : s.rs = .running → s'.rs = .fatal → s'.fc = t'.fc ∧ s'.fpc = t'.fpc

/-- Steps that commit nothing to the counters and to `OUT` have the same gain. -/
theorem SameGain.of_unchanged {s t s' t' : State} (core : s'.SameCore t') (hs : s'.tc = s.tc ∧ s'.ic = s.ic ∧ s'.out = s.out)
    (ht : t'.tc = t.tc ∧ t'.ic = t.ic ∧ t'.out = t.out)
    (fault : s.rs = .running → s'.rs = .fatal → s'.fc = t'.fc ∧ s'.fpc = t'.fpc) : SameGain s t s' t' := by
  obtain ⟨htc, hic, hout⟩ := hs
  obtain ⟨htc', hic', hout'⟩ := ht
  exact ⟨core, by omega, by omega, ⟨[], by simp [hout], by simp [hout']⟩, fault⟩

theorem State.SameCore.sameStart {s t : State} (h : s.SameCore t) (i : Instr) : SameStart i s t :=
  { h with
    acknowledged := State.acknowledged_congr h.wait
    host := by rw [h.host]
    input := fun _ => by rw [h.host]
    next := fun _ => by unfold State.nextInput; rw [State.takenInput_congr h.wait, h.host] }

theorem State.SameCore.raiseFatal {s t : State} (h : s.SameCore t) (kind : FatalKind) :
    SameGain s t (raiseFatal kind s) (raiseFatal kind t) :=
  .of_unchanged { h with rs := rfl, wait := rfl } ⟨rfl, rfl, rfl⟩ ⟨rfl, rfl, rfl⟩ fun _ _ => ⟨rfl, h.pc⟩

/-- Works that end in the same way settle to next states with the same gain. -/
theorem StepEnd.EndAlike.settle {i : Instr} {s t s' : State} {e e' : StepEnd} (he : e.EndAlike s t e') (h : s.SameCore t)
    (hs : settle i s e = .next s') : ∃ t', settle i t e' = .next t' ∧ SameGain s t s' t' := by
  rcases settle_next hs with ⟨u, rfl, rfl⟩ | ⟨rfl, rfl⟩ | ⟨kind, rfl, rfl⟩ | ⟨reason, mid, rfl, rfl⟩
  · cases he with | completes hu =>
    exact ⟨_, rfl, {
      core := { hu with wait := rfl }
      tc := by have := hu.tc; simp only [retire_tc]; omega
      ic := by have := hu.ic; simp only [retire_ic]; omega
      out := hu.out
      fault := fun hrs hx => by rw [retire_rs, hu.kept, hrs] at hx; cases hx }⟩
  · cases he
    refine ⟨_, rfl, .of_unchanged { h with rs := rfl, wait := rfl } ⟨rfl, rfl, rfl⟩ ⟨rfl, rfl, rfl⟩ fun _ hx => ?_⟩
    cases hx
  · cases he
    exact ⟨_, rfl, h.raiseFatal kind⟩
  · cases he with | waits _ hu =>
    refine ⟨_, rfl, .of_unchanged ?_ ⟨rfl, rfl, rfl⟩ ⟨rfl, rfl, rfl⟩ fun hrs hx => ?_⟩
    · exact { h with wait := by rw [holdWait_wait, holdWait_wait, hu.trace], host := hu.host }
    · rw [holdWait_rs, hrs] at hx; cases hx

/-- Without reset the steps from two states with the same core have the same gain. -/
theorem step_sameGain {s t s' : State} (h : s.SameCore t) (hrst : s.host.rst = false) (hs : step s = .next s') :
    ∃ t', step t = .next t' ∧ SameGain s t s' t' := by
  have hrst' : t.host.rst = false := h.host ▸ hrst
  have hfetch : fetch s = fetch t := fetch_congr h.pc (by rw [h.host])
  rcases step_next hs with ⟨hr, -⟩ | ⟨-, he, rfl⟩ | ⟨-, hrs, hlen, hw⟩
  · simp [hrst] at hr
  · refine ⟨t, heldWhenNotRunning t hrst' (by rwa [State.Ended, ← h.rs]), ?_⟩
    exact .of_unchanged h ⟨rfl, rfl, rfl⟩ ⟨rfl, rfl, rfl⟩ fun hrs => by simp [State.Ended, hrs] at he
  have hrs' : t.rs = .running := h.rs ▸ hrs
  have hlen' : t.host.program.length ≤ Config.progLenMax := h.host ▸ hlen
  rcases hw with ⟨hf, rfl⟩ | ⟨w, i, hf, hd, hx⟩ | ⟨w, op, k, hf, hd, hx⟩
  · exact ⟨_, step_of_fetch_none hrst' hrs' hlen' (hfetch ▸ hf), h.raiseFatal _⟩
  · rw [step_of_fetch hrst' hrs' hlen' (hfetch ▸ hf), runWord_of_decode hd]
    obtain ⟨e, e', hes, het, halike⟩ := exec_alike (h.sameStart i)
    rw [het]
    exact halike.settle h (hes ▸ hx)
  · rw [step_of_fetch hrst' hrs' hlen' (hfetch ▸ hf), runWord_of_unknown hd]
    unfold execUnknown at hx ⊢
    cases hx
    exact ⟨_, rfl, h.raiseFatal _⟩

/-- Settles O55: a reset step keeps the host's side alone, and any other has the same gain. -/
theorem observersNeverInfluenceExecution : Obligations.ObserversNeverInfluenceExecution := by
  intro s t s' h hs
  cases hrst : s.host.rst with
  | true =>
    rw [step_of_reset hrst] at hs
    cases hs
    exact ⟨_, step_of_reset (h.host ▸ hrst), ⟨rfl, rfl, rfl, rfl, rfl, h.host⟩, nofun, nofun⟩
  | false =>
    obtain ⟨t', ht, g⟩ := step_sameGain h hrst hs
    exact ⟨t', ht, g.core, fun _ => ⟨g.tc, g.ic, g.out⟩, fun _ => g.fault⟩
end Sys2Proof.Machine
end

section
/-! PROOF. A step that waits: what it holds, and that the next look at it finds the same wait while the host does nothing for it. -/

namespace Sys2Proof.Machine

/-! ### What a waiting step holds -/

theorem Instr.eq_get_of_opcode {i : Instr} (h : i.opcode = 0x00) : ∃ k, i = .get k := by
  cases i with
  | get k => exact ⟨k, rfl⟩
  | _ => simp [Instr.opcode] at h

theorem Instr.eq_put_of_opcode {i : Instr} (h : i.opcode = 0x01) : ∃ k, i = .put k := by
  cases i with
  | put k => exact ⟨k, rfl⟩
  | _ => simp [Instr.opcode] at h

section HeldWait

variable {i : Instr} {s mid : State} {reason : WaitReason}

/-- Which of the waits is the I/O wait (R32). -/
theorem holdWait_ioWait : (holdWait i reason s mid).ioWait = true ↔
    i.opcode = 0x01 ∨ (i.opcode = 0x00 ∧ (holdWait i reason s mid).takenInput = none) := by
  cases i with
  | get k => simp [State.ioWait, Wait.channelPending, State.takenInput, Instr.opcode]
  | _ => simp [State.ioWait, Wait.channelPending, Instr.opcode]

/-- A waiting step is the old state but for the wait, the snapshot port, the trace and the input (R32, R102). -/
theorem holdWait_eq (h : Working i s mid) : holdWait i reason s mid =
    { s with
      wait := some { instr := i, reason := reason, done := mid.trace }
      host := { s.host with input := (holdWait i reason s mid).host.input }
      dbg := none
      trace := [] } := by
  have hhost := h.host
  rw [holdWait, ← hhost]

/-- A waiting step has left the input as it was, or it is a `GET` that has taken its value (R121). -/
theorem Held.input_cases (h : Held i s reason mid) :
    mid.host.input = s.host.input ∨
      (i.opcode = 0x00 ∧ s.takenInput = none ∧
        ∃ v, s.host.input = v :: mid.host.input ∧ inputAmong mid.trace = some v) := by
  rcases h.look with rfl | hlook
  · exact .inl rfl
  by_cases hi : i.opcode = 0x00
  · obtain ⟨v, htaken, hnext⟩ := hlook.input hi
    rcases State.nextInput_eq_some.1 hnext with ⟨-, hin⟩ | ⟨hnone, hin⟩
    · exact .inl hin.symm
    · exact .inr ⟨hi, hnone, v, hin, htaken⟩
  · exact .inl (hlook.noInput hi).2

/-- A step waits for a request only when all that the memory acknowledges has been asked for (R58). -/
theorem Held.requests_eq {q : DmemRequest} (h : Held i s (.dataMemory q) mid) :
    requestsMade mid.trace = s.acknowledged + s.host.dmemAcks := by
  cases h; assumption

end HeldWait

/-! ### A state with a step in progress is no other end of a step -/

theorem retire_ne_holdWait {i j : Instr} {s s' done mid : State} {reason : WaitReason} :
    retire i s done ≠ holdWait j reason s' mid :=
  fun h => by cases congrArg State.wait h

theorem haltRun_ne_holdWait {j : Instr} {s s' mid : State} {reason : WaitReason} : haltRun s ≠ holdWait j reason s' mid :=
  fun h => by cases congrArg State.wait h

theorem raiseFatal_ne_holdWait {j : Instr} {s s' mid : State} {reason : WaitReason} {kind : FatalKind} :
    raiseFatal kind s ≠ holdWait j reason s' mid :=
  fun h => by cases congrArg State.wait h

/-! ### The next look at a waiting step -/

theorem exec_get (k : Word) (s : State) : exec (.get k) s = execGet k s := rfl

theorem exec_put (k : Word) (s : State) : exec (.put k) s = execPut k s := rfl

/-- What a `GET` with no value taken or offered does (R93, R121). -/
theorem exec_get_without_input (k : Word) {s : State} (hn : s.nextInput = none) :
    exec (.get k) s = .next
      (if k.toInt < 0 then raiseFatal .negativeAddress s else holdWait (.get k) .input s s.fresh) := by
  have hn' : s.fresh.nextInput = none := hn
  rw [exec_get, execGet, perform, addressOperand]
  split
  case isTrue hk => rw [checkedAddress_neg hk, settle_raises]
  case isFalse hk => rw [checkedAddress_nonneg (by omega), inRead_none hn', settle_waits]

/-- What a `PUT` does while the sink does not accept (R93, R123). -/
theorem exec_put_without_sink (k : Word) {s : State} (hs : s.host.sinkReady = false) :
    exec (.put k) s = .next
      (if k.toInt < 0 then raiseFatal .negativeAddress s
      else if s.fresh.Granted k.toNat then
        holdWait (.put k) (.output (s.cell k.toNat)) s ((s.fresh.define k.toNat).note (.read k.toNat (s.cell k.toNat)))
      else holdWait (.put k) (.dataMemory (.read k.toNat)) s s.fresh) := by
  rw [exec_put, execPut, perform, addressOperand]
  split
  case isTrue hk => rw [checkedAddress_neg hk, settle_raises]
  case isFalse hk =>
    have hlt : k.toNat < Config.addrLimit := toNat_lt_addrLimit (by omega)
    rw [checkedAddress_nonneg (by omega)]
    split
    case isTrue hg => rw [memRead_answers hlt hg, outWrite, if_neg (by simp [hs]), settle_waits, State.cell_fresh]
    case isFalse hg => rw [memRead, if_pos hlt, if_neg hg, settle_waits]

section NextLook

variable {i : Instr} {s t : State}

/-- A `GET` that waits for a value waits on, while the source offers none. -/
theorem exec_again_of_input (hi : i.opcode = 0x00) (hn : s.nextInput = none) (h : exec i s = .next t)
    (ht : t = holdWait i .input s s.fresh) : exec i t = .next t := by
  obtain ⟨k, rfl⟩ := Instr.eq_get_of_opcode hi
  subst ht
  obtain ⟨-, hin⟩ := State.nextInput_eq_none.1 hn
  have hn' : (holdWait (.get k) .input s s.fresh).nextInput = none := State.nextInput_eq_none.2 ⟨rfl, hin⟩
  rw [exec_get_without_input k hn] at h
  rw [exec_get_without_input k hn']
  split at h
  case isTrue hk => exact absurd (Host.Outcome.next.inj h) raiseFatal_ne_holdWait
  case isFalse hk => rw [if_neg hk]; rfl

/-- A `PUT` that waits for the sink waits on while the sink does not accept: its read has been acknowledged (R58). -/
theorem exec_again_of_output (hi : i.opcode = 0x01) (hs : s.host.sinkReady = false) (h : exec i s = .next t)
    {v : Word} {mid : State} (ht : t = holdWait i (.output v) s mid) : exec i t = .next t := by
  obtain ⟨k, rfl⟩ := Instr.eq_put_of_opcode hi
  rw [exec_put_without_sink k hs] at h
  split at h
  case isTrue hk => exact absurd ((Host.Outcome.next.inj h).trans ht) raiseFatal_ne_holdWait
  case isFalse hk =>
    split at h
    case isTrue hg =>
      have ht' := Host.Outcome.next.inj h
      have hs' : t.host.sinkReady = false := by rw [← ht']; exact hs
      have hg' : t.fresh.Granted k.toNat := by
        by_cases hk0 : k.toNat = 0
        · exact .inl hk0
        · exact .inr (by rw [← ht']; simp [State.acknowledged, hk0])
      rw [exec_put_without_sink k hs', if_neg hk, if_pos hg', ← ht']
      rfl
    case isFalse hg =>
      cases congrArg State.wait ((Host.Outcome.next.inj h).trans ht)

/-- A step that waits for a memory request waits on while the memory acknowledges nothing (R58): the next look agrees with this
one on all that the instruction depends on. -/
theorem exec_again_of_memory {u : State} {q : DmemRequest} (hu : Look i s 1 u)
    (hn : requestsMade u.trace = s.acknowledged + s.host.dmemAcks) (hacks : s.host.dmemAcks = 0) (h : exec i s = .next t)
    (ht : t = holdWait i (.dataMemory q) s u) : exec i t = .next t := by
  have hsame : SameStart i s t := by
    subst ht
    exact {
      rs := rfl
      pc := rfl
      acc := rfl
      mem := rfl
      acknowledged := by rw [hacks] at hn; exact hn.symm
      host := hu.working.host
      input := fun hi => (hu.noInput hi).2.symm
      next := fun hi => by
        obtain ⟨v, htaken, hnext⟩ := hu.input hi
        have htaken' : (holdWait i (.dataMemory q) s u).takenInput = some v := htaken
        rw [hnext]
        exact (State.nextInput_eq_some.2 (.inl ⟨htaken', rfl⟩)).symm }
  obtain ⟨e, e', hes, het, halike⟩ := exec_alike hsame
  rw [hes] at h
  rw [het]
  rcases settle_next h with ⟨u, rfl, rfl⟩ | ⟨rfl, rfl⟩ | ⟨kind, rfl, rfl⟩ | ⟨reason, mid, rfl, rfl⟩
  · exact absurd ht retire_ne_holdWait
  · exact absurd ht haltRun_ne_holdWait
  · exact absurd ht raiseFatal_ne_holdWait
  · cases halike with | waits _ hm =>
    rw [settle_waits, holdWait, holdWait, hm.host, hm.trace]

/-- The next look at a waiting step finds the same wait. -/
theorem exec_again {reason : WaitReason} {mid : State} (hh : Held i s reason mid) (h : exec i s = .next t)
    (ht : t = holdWait i reason s mid) (hstill : s.host.dmemAcks = 0 ∨ ∀ q, reason ≠ .dataMemory q) : exec i t = .next t := by
  cases hh with
  | input hi hn => exact exec_again_of_input hi hn h ht
  | output hu hi hs => exact exec_again_of_output hi hs h ht
  | memory hu hq hn =>
    rcases hstill with hacks | hne
    · exact exec_again_of_memory hu hn hacks h ht
    · exact absurd rfl (hne _)

end NextLook

/-- A step that answers a wait is that of an instruction, with a program that fits its store. -/
theorem waiting_step {s t : State} (hrst : s.host.rst = false) (hrs : s.rs = .running) (h : step s = .next t)
    (hw : t.wait.isSome = true) : s.host.program.length ≤ Config.progLenMax ∧
      ∃ w i reason mid, fetch s = some w ∧ decode w = .ok i ∧ exec i s = .next t ∧
        Held i s reason mid ∧ t = holdWait i reason s mid := by
  rcases step_next h with ⟨hr, -⟩ | ⟨-, he, -⟩ |
    ⟨-, -, hlen, ⟨-, rfl⟩ | ⟨w, i, hf, hd, hx⟩ | ⟨w, op, k, -, -, hx⟩⟩
  · simp [hrst] at hr
  · simp [State.Ended, hrs] at he
  · cases hw
  · rcases exec_next_ends hx with ⟨done, -, rfl⟩ | ⟨-, rfl⟩ | rfl | ⟨reason, mid, hh, ht⟩
    · cases hw
    · cases hw
    · cases hw
    · exact ⟨hlen, w, i, reason, mid, hf, hd, hx, hh, ht⟩
  · obtain ⟨kind, -, rfl⟩ := execUnknown_next hx
    cases hw

/-- Settles O37: what the wait holds, and the next look at it. -/
theorem waitingStepHasNoEffect : Obligations.WaitingStepHasNoEffect := by
  intro s t hrst hrs h hw
  obtain ⟨hlen, w, i, reason, mid, hf, hd, hx, hh, ht⟩ := waiting_step hrst hrs h hw
  have hwork := hh.uncommitted.working
  have hhost : t.host = mid.host := by rw [ht, holdWait_host]
  refine ⟨w, i, { instr := i, reason := reason, done := mid.trace }, hf, hd, by rw [ht, holdWait_wait], rfl, ?_, ?_, ?_,
    fun q hq => ?_, fun hstill => ?_⟩
  · subst ht; exact holdWait_eq hwork
  · subst ht; exact hh.input_cases
  · subst ht; exact holdWait_ioWait
  · subst ht; cases hq
    exact hh.requests_eq
  · have hfetch : fetch t = some w := by
      rw [← hf]
      exact fetch_congr (by rw [ht, holdWait_pc]) (by rw [hhost, hwork.host])
    rw [step_of_fetch (by rw [hhost, hwork.host]; exact hrst) (by rw [ht, holdWait_rs, hrs])
      (by rw [hhost, hwork.host]; exact hlen) hfetch, runWord_of_decode hd]
    exact exec_again hh hx ht hstill
end Sys2Proof.Machine
end

section
/-! PROOF. What a completed step has accessed, and the four ways a Running step ends (R65, R103). -/

namespace Sys2Proof.Machine

/-! ### The cells and the trace after an instruction -/

/-- Settles O46: a completed instruction keeps to the frame of its working state, and no other end commits a write. -/
theorem atMostOneCellIsWritten : Obligations.AtMostOneCellIsWritten := by
  intro i s t h a ha
  rcases exec_next h with ⟨done, w, rfl⟩ | ⟨-, rfl⟩ | rfl | ⟨reason, mid, -, rfl⟩
  · exact w.cell a ha
  · rfl
  · rfl
  · rfl

/-- The one write of a completed work comes after all its other accesses (R65). -/
theorem Completion.reads_first {i : Instr} {s done : State} (h : Completion i s done) :
    ∀ x ∈ done.trace.dropLast, x.isWrite = false := by
  intro x hx
  cases h with
  | transfers h => exact (h.noCommit x (List.mem_of_mem_dropLast hx)).1
  | writes h v => exact (h.noCommit x (by simpa using hx)).1
  | outputs h => exact (h.noCommit x (by simpa using hx)).1

/-- Settles O48: only a completed step leaves a trace, and its write is the last access of it. -/
theorem readsPrecedeTheOneWrite : Obligations.ReadsPrecedeTheOneWrite := by
  intro i s t h
  rcases exec_next_ends h with ⟨done, c, rfl⟩ | ⟨-, rfl⟩ | rfl | ⟨reason, mid, -, rfl⟩
  · exact c.reads_first
  · exact nofun
  · exact nofun
  · exact nofun

/-! ### The four ends of a Running step -/

/-- What a waiting work waits for (R58, R121, R123): input with none offered or taken, a sink that is not ready, or a request after
all those that the memory acknowledges. -/
theorem Held.reason_cases {i : Instr} {s mid : State} {reason : WaitReason} (h : Held i s reason mid) :
    (reason = .input ∧ s.host.input = [] ∧ s.takenInput = none) ∨
    (∃ v, reason = .output v ∧ s.host.sinkReady = false) ∨
    (∃ q, reason = .dataMemory q ∧ requestsMade mid.trace = s.acknowledged + s.host.dmemAcks ∧ requestsMade mid.trace ≤ 1) := by
  cases h with
  | input _ hn =>
    obtain ⟨htaken, hin⟩ := State.nextInput_eq_none.1 hn
    exact .inl ⟨rfl, hin, htaken⟩
  | output _ _ hs => exact .inr (.inl ⟨_, rfl, hs⟩)
  | memory h _ hn => exact .inr (.inr ⟨_, rfl, hn, h.made⟩)

/-- Settles O38: the four ends of a Running step, told apart by run state, wait and total cost. -/
theorem stepEndsInOneOfFourWays : Obligations.StepEndsInOneOfFourWays := by
  intro s hrst hrs hlen
  rcases step_answers s with ⟨t, h⟩ | ⟨-, -, -, hlong⟩
  case inr => omega
  refine ⟨t, h, ?_⟩
  rcases running_step_ends hrst hrs h with ⟨i, done, -, c, rfl⟩ | ⟨i, -, -, rfl⟩ | ⟨kind, -, rfl⟩ |
      ⟨i, reason, mid, -, hh, rfl⟩
  · have hcost := cost_pos c.opcode_ne_halt
    exact .inl ⟨c.working.rs.trans hrs, rfl, by rw [retire_tc, c.working.tc]; omega⟩
  · exact .inr (.inl ⟨rfl, rfl, rfl⟩)
  · exact .inr (.inr (.inl ⟨rfl, rfl, rfl⟩))
  · exact .inr (.inr (.inr ⟨hrs, rfl, _, rfl, hh.reason_cases⟩))

end Sys2Proof.Machine
end

section
/-! PROOF. A `GET` takes at most one value of the input source, and no step changes anything else that the host drives. -/

namespace Sys2Proof.Machine

/-- What a `GET` does with the next input value (R120). -/
theorem exec_get_with_input {k v : Word} {s : State} {rest : List Word} (hk : 0 ≤ k.toInt)
    (hn : s.nextInput = some (v, rest)) :
    exec (.get k) s =
      settle (.get k) s
        (memWrite k.toNat v ((s.fresh.consumeInput rest).note (.input v)) fun u => .completes (advance u)) := by
  have hn' : s.fresh.nextInput = some (v, rest) := hn
  rw [exec_get, execGet, perform, addressOperand, checkedAddress_nonneg hk, inRead_some hn']

/-- What a `GET` does with a negative operand (R93). -/
theorem exec_get_neg {k : Word} (hk : k.toInt < 0) (s : State) :
    exec (.get k) s = .next (raiseFatal .negativeAddress s) := by
  rw [exec_get, execGet, perform, addressOperand, checkedAddress_neg hk, settle_raises]

/-- The value that a `GET` takes from the source is the one it has written, or holds for its write (R121; log 13). -/
theorem exec_get_input {k : Word} {s t : State} (h : exec (.get k) s = .next t) :
    t.host.input = s.host.input ∨
      ∃ v, s.takenInput = none ∧ s.host.input = v :: t.host.input ∧
        ((t.wait = none ∧ t.trace = [.input v, .write k.toNat v]) ∨ t.takenInput = some v) := by
  by_cases hk : k.toInt < 0
  · rw [exec_get_neg hk] at h
    cases h
    exact .inl rfl
  cases hn : s.nextInput with
  | none =>
    rw [exec_get_without_input k hn, if_neg hk] at h
    cases h
    exact .inl rfl
  | some p =>
    obtain ⟨v, rest⟩ := p
    rw [exec_get_with_input (by omega) hn] at h
    rcases memWrite_cases k.toNat v ((s.fresh.consumeInput rest).note (.input v)) (fun u => .completes (advance u)) with
      ⟨-, -, e⟩ | ⟨-, -, e⟩ | ⟨-, e⟩
    all_goals rw [e] at h; cases h
    all_goals rcases State.nextInput_eq_some.1 hn with ⟨-, rfl⟩ | ⟨htaken, hin⟩
    · exact .inl rfl
    · exact .inr ⟨v, htaken, hin, .inl ⟨rfl, rfl⟩⟩
    · exact .inl rfl
    · exact .inr ⟨v, htaken, hin, .inr rfl⟩

/-- Settles O44: a step of the machine changes of the host's side at most the input, and that only as a `GET`. -/
theorem hostSideIsLeftAlone : Obligations.HostSideIsLeftAlone := by
  intro s t h
  rcases step_next h with ⟨-, rfl⟩ | ⟨-, -, rfl⟩ |
    ⟨-, -, -, ⟨-, rfl⟩ | ⟨w, i, hf, hd, hx⟩ | ⟨w, op, k, -, -, hx⟩⟩
  · exact ⟨rfl, rfl, rfl, rfl, .inl rfl⟩
  · exact ⟨rfl, rfl, rfl, rfl, .inl rfl⟩
  · exact ⟨rfl, rfl, rfl, rfl, .inl rfl⟩
  · obtain ⟨-, -, -, -, hother, -, hhost⟩ := registersOutsideTheFrame i s t hx
    refine ⟨by rw [hhost], by rw [hhost], by rw [hhost], by rw [hhost], ?_⟩
    by_cases hi : i.opcode = 0x00
    · obtain ⟨k, rfl⟩ := Instr.eq_get_of_opcode hi
      rcases exec_get_input hx with hin | ⟨v, htaken, hin, hend⟩
      · exact .inl hin
      · exact .inr ⟨w, k, v, hf, hd, htaken, hin, hend⟩
    · exact .inl (congrArg HostSide.input (hother hi))
  · obtain ⟨kind, -, rfl⟩ := execUnknown_next hx
    exact ⟨rfl, rfl, rfl, rfl, .inl rfl⟩

end Sys2Proof.Machine
end

section
/-! PROOF. Which request an instruction waits on when the memory has acknowledged none of its requests, or the first alone (R58). -/

namespace Sys2Proof.Machine

/-- A positive word names an address of 1 or more. -/
theorem one_le_toNat_of_pos {v : Word} (h : 0 < v.toInt) : 1 ≤ v.toNat := by
  rw [BitVec.toInt_eq_toNat_cond] at h
  split at h <;> omega

/-- A waiting step whose work has left the host's side alone is the state written out from R102. -/
theorem holdWait_eq_afterWait {s mid : State} (h : mid.host = s.host) (i : Instr) (reason : WaitReason) :
    holdWait i reason s mid = s.afterWait i reason mid.trace := by
  rw [holdWait, h]; rfl

/-! ### A request when all that the memory acknowledges have been made -/

section AllAsked

variable {i : Instr} {s u : State} {n : Nat}

/-- Reading the accumulator adds no request (R57). -/
theorem Uncommitted.readAcc (h : Uncommitted i s n u) : Uncommitted i s n ((u.define 0).note (.read 0 s.acc)) :=
  h.read (a := 0) (by decide) u.granted_zero (by simp)

theorem Uncommitted.not_granted (h : Uncommitted i s n u) (hall : requestsMade u.trace = s.acknowledged + s.host.dmemAcks)
    {a : Nat} (ha : 1 ≤ a) : ¬ u.Granted a := by
  rw [h.granted_iff]; omega

theorem Uncommitted.settle_memRead (h : Uncommitted i s n u)
    (hall : requestsMade u.trace = s.acknowledged + s.host.dmemAcks) {v : Word} (hv : 0 < v.toInt) (f : Word → State → StepEnd)
    (hi : i.opcode ≠ 0x00 := by simp [Instr.opcode]) :
    settle i s (memRead v.toNat u f) = .next (s.afterWait i (.dataMemory (.read v.toNat)) u.trace) := by
  rw [memRead, if_pos (toNat_lt_addrLimit (by omega)), if_neg (h.not_granted hall (one_le_toNat_of_pos hv)), settle_waits,
    holdWait_eq_afterWait (h.working.host_eq hi)]

theorem Uncommitted.memWrite_waits (h : Uncommitted i s n u)
    (hall : requestsMade u.trace = s.acknowledged + s.host.dmemAcks) {v : Word} (hv : 0 < v.toInt) (x : Word)
    (f : State → StepEnd) : memWrite v.toNat x u f = .waits (.dataMemory (.write v.toNat x)) u := by
  rw [memWrite, if_pos (toNat_lt_addrLimit (by omega)), if_neg (h.not_granted hall (one_le_toNat_of_pos hv))]

theorem Uncommitted.settle_memWrite (h : Uncommitted i s n u)
    (hall : requestsMade u.trace = s.acknowledged + s.host.dmemAcks) {v : Word} (hv : 0 < v.toInt) (x : Word)
    (f : State → StepEnd) (hi : i.opcode ≠ 0x00 := by simp [Instr.opcode]) :
    settle i s (memWrite v.toNat x u f) = .next (s.afterWait i (.dataMemory (.write v.toNat x)) u.trace) := by
  rw [h.memWrite_waits hall hv, settle_waits, holdWait_eq_afterWait (h.working.host_eq hi)]

end AllAsked

/-! ### No request acknowledged -/

section NoneAcknowledged

variable {s : State} {k : Word} (hnone : s.acknowledged + s.host.dmemAcks = 0) (hk : 0 < k.toInt)

include hnone hk

/-- An instruction that begins with the read of its operand cell waits on that read. -/
theorem settle_operand_read (i : Instr) (f : Nat → Word → State → StepEnd) (hi : i.opcode ≠ 0x00 := by simp [Instr.opcode]) :
    settle i s (addressOperand k fun a => memRead a s.fresh (f a)) =
      .next (s.afterWait i (.dataMemory (.read k.toNat)) []) := by
  rw [addressOperand, checkedAddress_nonneg (by omega)]
  exact (Uncommitted.start i s).settle_memRead hnone.symm hk _ hi

/-- The accumulator's read before it needs no request. -/
theorem settle_acc_then_operand_read (i : Instr) (f : Word → Nat → Word → State → StepEnd)
    (hi : i.opcode ≠ 0x00 := by simp [Instr.opcode]) :
    settle i s (addressOperand k fun a => memRead 0 s.fresh fun x u => memRead a u (f x a)) =
      .next (s.afterWait i (.dataMemory (.read k.toNat)) [.read 0 s.acc]) := by
  rw [addressOperand, checkedAddress_nonneg (by omega), memRead_acc]
  exact (Uncommitted.start i s).readAcc.settle_memRead hnone.symm hk _ hi

theorem exec_store_unacknowledged :
    exec (.store k) s = .next (s.afterWait (.store k) (.dataMemory (.write k.toNat s.acc)) [.read 0 s.acc]) := by
  rw [exec, execStore, perform, addressOperand, checkedAddress_nonneg (by omega), memRead_acc]
  exact (Uncommitted.start (.store k) s).readAcc.settle_memWrite hnone.symm hk _ _

theorem exec_get_unacknowledged {v : Word} {rest : List Word} (hn : s.nextInput = some (v, rest)) :
    exec (.get k) s = .next (holdWait (.get k) (.dataMemory (.write k.toNat v)) s
      ((s.fresh.consumeInput rest).note (.input v))) := by
  rw [exec_get_with_input (by omega) hn, (Look.get (i := .get k) rfl hn).memWrite_waits hnone.symm hk, settle_waits]

end NoneAcknowledged

/-! ### The pointer read acknowledged, or of the accumulator, and no request after it -/

section PointerRead

variable {s : State} {k : Word}

/-- The working state of an indirect instruction after the read of its pointer cell. -/
def State.afterPointer (s : State) (k : Word) : State := (s.fresh.define k.toNat).note (.read k.toNat (s.cell k.toNat))

/-- The memory acknowledges the request of the pointer read, if it is one, and no other. -/
def State.AcksPointerOnly (s : State) (k : Word) : Prop :=
  (if k.toNat = 0 then 0 else 1) = s.acknowledged + s.host.dmemAcks

theorem State.AcksPointerOnly.granted (h : s.AcksPointerOnly k) : s.fresh.Granted k.toNat := by
  by_cases h0 : k.toNat = 0
  · exact .inl h0
  · rw [State.AcksPointerOnly, if_neg h0] at h
    exact .inr (show 0 < s.acknowledged + s.host.dmemAcks by omega)

theorem requestsMade_afterPointer (h : s.AcksPointerOnly k) :
    requestsMade (s.afterPointer k).trace = s.acknowledged + s.host.dmemAcks :=
  (requestsMade_read ..).trans h

variable (hk : 0 ≤ k.toInt) (hacks : s.AcksPointerOnly k) (he : 0 < (s.cell k.toNat).toInt)

include hk hacks

theorem uncommitted_afterPointer (i : Instr) : Uncommitted i s 1 (s.afterPointer k) :=
  (Uncommitted.start i s).read (toNat_lt_addrLimit hk) hacks.granted (by split <;> omega)

include he

theorem indirectOperand_afterPointer (f : Nat → State → StepEnd) :
    indirectOperand k s.fresh f = f (s.cell k.toNat).toNat (s.afterPointer k) := by
  rw [indirectOperand, addressOperand, checkedAddress_nonneg hk, memRead_answers (toNat_lt_addrLimit hk) hacks.granted,
    checkedAddress_nonneg (by rw [State.cell_fresh]; omega)]
  rfl

/-- An indirect instruction that goes on with the read of its data cell waits on that read. -/
theorem settle_data_read (i : Instr) (f : Nat → Word → State → StepEnd) (hi : i.opcode ≠ 0x00 := by simp [Instr.opcode]) :
    settle i s (indirectOperand k s.fresh fun a u => memRead a u (f a)) =
      .next (s.afterWait i (.dataMemory (.read (s.cell k.toNat).toNat)) [.read k.toNat (s.cell k.toNat)]) := by
  rw [indirectOperand_afterPointer hk hacks he]
  exact (uncommitted_afterPointer hk hacks i).settle_memRead (requestsMade_afterPointer hacks) he _ hi

/-- The three indirect instructions that read their data cell. -/
theorem exec_indirect_read_waits : ∀ i ∈ ([.loadi k, .addi k, .subi k] : List Instr),
    exec i s = .next (s.afterWait i (.dataMemory (.read (s.cell k.toNat).toNat)) [.read k.toNat (s.cell k.toNat)]) := by
  intro i hi
  simp only [List.mem_cons, List.not_mem_nil, or_false] at hi
  rcases hi with rfl | rfl | rfl
  all_goals exact settle_data_read hk hacks he _ _

theorem exec_storei_waits :
    exec (.storei k) s = .next (s.afterWait (.storei k) (.dataMemory (.write (s.cell k.toNat).toNat s.acc))
      [.read k.toNat (s.cell k.toNat), .read 0 s.acc]) := by
  have hall := requestsMade_afterPointer hacks
  rw [exec, execStorei, perform, indirectOperand_afterPointer hk hacks he, memRead_acc]
  exact (uncommitted_afterPointer hk hacks (.storei k)).readAcc.settle_memWrite (by simpa using hall) he _ _

end PointerRead

/-- Settles O36: no request acknowledged, instruction by instruction, and then the first one alone. -/
theorem unacknowledgedMemoryWaits : Obligations.UnacknowledgedMemoryWaits := by
  intro s k
  refine ⟨fun hnone => ⟨fun hk i hi => ?_, fun hk i hi => ?_, fun hk => exec_store_unacknowledged hnone hk,
    fun v rest hk hin => ?_, fun hacc => ?_, fun hacc => ?_⟩, fun hone hk he => ?_⟩
  · simp only [List.mem_cons, List.not_mem_nil, or_false] at hi
    rcases hi with rfl | rfl | rfl | rfl | rfl | rfl | rfl
    all_goals exact settle_operand_read hnone hk _ _
  · simp only [List.mem_cons, List.not_mem_nil, or_false] at hi
    rcases hi with rfl | rfl
    all_goals exact settle_acc_then_operand_read hnone hk _ _
  · exact exec_get_unacknowledged hnone hk (State.nextInput_eq_some.2 hin)
  · exact exec_indirect_read_waits (k := 0) (by decide) hnone.symm hacc
  · exact exec_storei_waits (k := 0) (by decide) hnone.symm hacc
  · have hacks : s.AcksPointerOnly k := by
      have := one_le_toNat_of_pos hk
      rw [State.AcksPointerOnly, if_neg (by omega), hone]
    exact ⟨exec_indirect_read_waits (by omega) hacks he, exec_storei_waits (by omega) hacks he⟩

end Sys2Proof.Machine
end

section
/-! PROOF. The decoder and the encoder are inverse to each other on the 18 opcodes of R74, and every other word is rejected (R75). -/

namespace Sys2Proof.Machine

/-! ### The fields of a word and of an encoding (R70, R74) -/

@[simp] theorem opcodeField_encode (i : Instr) : opcodeField (encode i) = i.opcode :=
  opcodeField_append i.opcode i.operand

@[simp] theorem operandField_encode (i : Instr) : operandField (encode i) = i.operand :=
  operandField_append i.opcode i.operand

/-- A word is the encoding of the instruction that has its two fields. -/
theorem encode_eq_of_fields {w : InsnWord} {i : Instr} (hop : i.opcode = opcodeField w) (hk : i.operand = operandField w) :
    encode i = w := by
  rw [encode, hop, hk, fields_append]

theorem opcode_le (i : Instr) : i.opcode.toNat ≤ 0x11 := by
  cases i <;> exact Nat.le_of_ble_eq_true rfl

/-- As a number, a word put together from its two fields is `opcode * 2^64 + operand` (R70). -/
theorem toNat_fields_append (op : OpcodeField) (k : Word) : (op ++ k).toNat = op.toNat * 2 ^ 64 + k.toNat := by
  rw [BitVec.toNat_append, ← Nat.shiftLeft_add_eq_or_of_lt k.isLt, Nat.shiftLeft_eq]

/-! ### What the decoder answers (R75) -/

/-- The decoder answers an instruction that encodes to the word, or rejects an opcode above 0x11. -/
theorem decode_cases (w : InsnWord) :
    (∃ i, decode w = .ok i ∧ encode i = w) ∨
    (0x11 < (opcodeField w).toNat ∧ decode w = .error (.unknownOpcode (opcodeField w) (operandField w))) := by
  unfold decode
  split
  case h_19 => exact .inr ⟨by grind, rfl⟩
  all_goals exact .inl ⟨_, rfl, encode_eq_of_fields (BitVec.eq_of_toNat_eq (Eq.symm ‹_›)) rfl⟩

/-- The opcode number selects the instruction's own arm of the decoder, and the arm puts the operand back. -/
theorem decode_encode (i : Instr) : decode (encode i) = .ok i := by
  unfold decode
  rw [opcodeField_encode, operandField_encode]
  cases i <;> rfl

/-- The decoder answers an instruction exactly on its encoding. -/
theorem decode_eq_ok_iff {w : InsnWord} {i : Instr} : decode w = .ok i ↔ encode i = w := by
  constructor
  · intro hd
    rcases decode_cases w with ⟨j, hj, hw⟩ | ⟨-, he⟩
    · cases hj.symm.trans hd
      exact hw
    · cases he.symm.trans hd
  · rintro rfl
    exact decode_encode i

/-- An opcode of at most 0x11 is that of an instruction. -/
theorem exists_encode_eq {w : InsnWord} (h : (opcodeField w).toNat ≤ 0x11) : ∃ i, encode i = w := by
  rcases decode_cases w with ⟨i, -, hw⟩ | ⟨hlt, -⟩
  · exact ⟨i, hw⟩
  · omega

/-- An opcode above 0x11 is rejected. -/
theorem decode_of_unknown {w : InsnWord} (h : 0x11 < (opcodeField w).toNat) :
    decode w = .error (.unknownOpcode (opcodeField w) (operandField w)) := by
  rcases decode_cases w with ⟨i, -, rfl⟩ | ⟨-, he⟩
  · have := opcode_le i
    rw [opcodeField_encode] at h
    omega
  · exact he

/-- The decoder rejects no opcode of at most 0x11. -/
theorem opcode_gt_of_decode_error {w : InsnWord} {r : DecodeReject} (h : decode w = .error r) :
    0x11 < (opcodeField w).toNat := by
  rcases decode_cases w with ⟨i, hi, -⟩ | ⟨hlt, -⟩
  · cases hi.symm.trans h
  · exact hlt

/-! ### The statements about the instruction word -/

/-- Settles O1: the encoding has the instruction's own two fields, from which the decoder rebuilds it. -/
theorem encodeThenDecodeIsIdentity : Obligations.EncodeThenDecodeIsIdentity :=
  decode_encode

/-- Settles O2: the word is an encoding or its opcode is above 0x11, and an encoding decodes to its one instruction. -/
theorem decoderIsTotalAndExact : Obligations.DecoderIsTotalAndExact := by
  refine fun w => ⟨fun hle => ?_, decode_of_unknown⟩
  obtain ⟨i, rfl⟩ := exists_encode_eq hle
  refine ⟨i, decode_encode i, (opcodeField_encode i).symm, (operandField_encode i).symm, rfl, fun j hj => ?_⟩
  have hd : Except.ok j = Except.ok i := (decode_eq_ok_iff.2 hj).symm.trans (decode_encode i)
  exact Except.ok.inj hd

/-- Settles O3: the fields are cut out of the word, and put together they are the word. -/
theorem wordFieldsAreTheirBits : Obligations.WordFieldsAreTheirBits := by
  refine fun w => ⟨fun i hi => ?_, fun i hi => ?_, ?_⟩
  · simp [opcodeField, hi]
  · simp [operandField, hi]
  · rw [← toNat_fields_append, fields_append]

/-- Settles O4: the table row by row; then, an opcode field of at most 0x11 decodes in both words, any other in neither. -/
theorem opcodeMapIsTheTable : Obligations.OpcodeMapIsTheTable := by
  refine ⟨fun k => rfl, fun w w' hop => ⟨fun i hd => ?_, fun op k hd => ?_⟩⟩
  · have hi : opcodeField w' = i.opcode := hop.symm.trans (opcodeField_of_decode hd)
    obtain ⟨i', rfl⟩ := exists_encode_eq (hi ▸ opcode_le i)
    exact ⟨i', decode_encode i', (opcodeField_encode i').symm.trans hi⟩
  · have hlt := opcode_gt_of_decode_error hd
    cases (decode_of_unknown hlt).symm.trans hd
    exact ⟨_, hop ▸ decode_of_unknown (hop ▸ hlt)⟩

/-- Settles O5: the encoder gives each of the twenty words, and so the decoder reads each of them back. -/
theorem exampleEncodings : Obligations.ExampleEncodings := by
  intro p hp
  have henc : encode p.2 = p.1 := by
    revert p
    decide
  exact ⟨henc, decode_eq_ok_iff.2 henc⟩

/-! ### The step of an unknown opcode (R76) -/

/-- Settles O11: the word at the pc is rejected, so the step is that of an unknown opcode, whose sign check comes first. -/
theorem unknownOpcodeFault : Obligations.UnknownOpcodeFault := by
  intro s w hrst hrs hlen hpc hw hop
  have hstep : step s = execUnknown (operandField w) s :=
    (step_of_fetch hrst hrs hlen (fetch_of_getElem? hpc hw)).trans (runWord_of_unknown (decode_of_unknown hop) s)
  rcases execUnknown_cases (operandField w) s with ⟨hneg, he⟩ | ⟨hnonneg, he⟩
  · exact ⟨fun h => by omega, fun _ => hstep.trans he⟩
  · exact ⟨fun _ => hstep.trans he, fun h => by omega⟩

end Sys2Proof.Machine
end

section
/-! PROOF. The step of the sequencer: the fetch range check and the decoded instruction (R91, R92), which address checks fault and
which do not (R93, R94), what a step completes and what it is charged (R96, R97), and the arithmetic and condition units (R99 to
R101). -/

namespace Sys2Proof.Machine

/-! ### The fetch range check and the decoded instruction (R91, R92) -/

/-- Settles O6: the fetch finds the word, and the word's step is that of the instruction it decodes to. -/
theorem stepRunsTheDecodedInstruction : Obligations.StepRunsTheDecodedInstruction := by
  intro s w i hrst hrs hlen hpc hw hd
  rw [step_of_fetch hrst hrs hlen (fetch_of_getElem? hpc hw), runWord_of_decode hd]

/-- A pc that is not negative is the index it names. -/
theorem toNat_eq_toInt_of_nonneg {p : Pc} (h : 0 ≤ p.toInt) : (p.toNat : Int) = p.toInt := by
  have hcond := BitVec.toInt_eq_toNat_cond p
  split at hcond <;> omega

/-- The fetch finds no word exactly when the pc is out of range (R92). -/
theorem fetch_eq_none_iff {s : State} :
    fetch s = none ↔ s.pc.toInt < 0 ∨ (s.host.program.length : Int) ≤ s.pc.toInt := by
  unfold fetch
  by_cases hpc : s.pc.toInt < 0
  · simp [hpc]
  · have hnat := toNat_eq_toInt_of_nonneg (p := s.pc) (by omega)
    rw [if_neg hpc, List.getElem?_eq_none_iff]
    omega

/-- Settles O8: the fetch finds no word exactly out of range, and in range the word at the pc. -/
theorem fetchRangeCheck : Obligations.FetchRangeCheck := by
  refine fun s hrst hrs hlen => ⟨fun hout => ?_, fun hlow hhigh => ?_⟩
  · exact step_of_fetch_none hrst hrs hlen (fetch_eq_none_iff.2 hout)
  · cases hf : fetch s with
    | none =>
      have hout := fetch_eq_none_iff.1 hf
      omega
    | some w =>
      obtain ⟨-, -, hw⟩ := fetch_eq_some hf
      have hidx : s.pc.toInt.toNat = s.pc.toNat := by rw [← toNat_eq_toInt_of_nonneg hlow, Int.toNat_natCast]
      exact ⟨w, hidx ▸ hw, step_of_fetch hrst hrs hlen hf⟩

/-! ### The address checks that fault (R93, R94) -/

theorem perform_raises {i : Instr} {s : State} {work : State → StepEnd} {kind : FatalKind} (h : work s.fresh = .raises kind) :
    perform i s work = .next (raiseFatal kind s) := by
  rw [perform, h, settle_raises]

/-- The operand-sign check exempts `SET`, the relative jumps and `HALT` (R93). -/
theorem operandSignOk_eq_true_iff (i : Instr) :
    i.operandSignOk = true ↔
      i.opcode ∈ ([0x0A, 0x0C, 0x0D, 0x0E, 0x0F, 0x11] : List OpcodeField) ∨ 0 ≤ i.operand.toInt := by
  cases i <;> simp [Instr.operandSignOk, Instr.opcode, Instr.operand]

/-- The sign check of an indirect operand comes before the read of its pointer cell (R93, R94). -/
theorem indirectOperand_of_operand_neg {k : Word} (hk : k.toInt < 0) (s : State) (f : Nat → State → StepEnd) :
    indirectOperand k s f = .raises .negativeAddress := by
  rw [indirectOperand, addressOperand, checkedAddress_neg hk]

/-- An operand that fails the sign check raises NegativeAddress before any access (R93). -/
theorem exec_of_operand_neg {i : Instr} (h : i.operandSignOk = false) (s : State) :
    exec i s = .next (raiseFatal .negativeAddress s) := by
  cases i with
  | get k | put k | load k | store k | add k | sub k | half k | rtrn k =>
    have hk : k.toInt < 0 := by simpa [Instr.operandSignOk] using h
    unfold exec
    refine perform_raises ?_
    exact checkedAddress_neg hk _
  | loadi k | storei k | addi k | subi k =>
    have hk : k.toInt < 0 := by simpa [Instr.operandSignOk] using h
    unfold exec
    refine perform_raises ?_
    exact indirectOperand_of_operand_neg hk s.fresh _
  | set k | jump k | jpos k | jzero k | jneg k | halt k => cases h

/-- A pointer cell that answers a negative value raises NegativeAddress (R94). -/
theorem indirectOperand_of_pointer_neg {k : Word} {s : State} (hk : 0 ≤ k.toInt) (hg : s.Granted k.toNat)
    (he : (s.cell k.toNat).toInt < 0) (f : Nat → State → StepEnd) :
    indirectOperand k s f = .raises .negativeAddress := by
  rw [indirectOperand, addressOperand, checkedAddress_nonneg hk, memRead_answers (toNat_lt_addrLimit hk) hg,
    checkedAddress_neg he]

theorem exec_of_pointer_neg {i : Instr} {s : State} (hi : i.operandKind = .addressIndirect) (hk : 0 ≤ i.operand.toInt)
    (hg : s.fresh.Granted i.operand.toNat) (he : (s.cell i.operand.toNat).toInt < 0) :
    exec i s = .next (raiseFatal .negativeAddress s) := by
  cases i with
  | loadi k | storei k | addi k | subi k =>
    unfold exec
    refine perform_raises ?_
    exact indirectOperand_of_pointer_neg hk hg he _
  | _ => cases hi

/-- The first request of a step is granted exactly when the memory answers it. -/
theorem granted_fresh_iff {s : State} {a : Nat} : s.fresh.Granted a ↔ a = 0 ∨ s.Answers [a] :=
  State.granted_iff (before := []) rfl rfl rfl

/-- Settles O10: the read of the pointer cell is granted, and its negative value faults. -/
theorem effectiveAddressCheck : Obligations.EffectiveAddressCheck := by
  intro s k i hi hk hans he
  have hg : s.fresh.Granted k.toNat := granted_fresh_iff.2 (.inr hans)
  simp only [List.mem_cons, List.not_mem_nil, or_false] at hi
  rcases hi with rfl | rfl | rfl | rfl
  all_goals exact exec_of_pointer_neg rfl hk hg he

/-! ### No other fault (R93, R94) -/

/-- The work raises no fault. -/
def StepEnd.Faultless : StepEnd → Prop
  | .raises _ => False
  | .completes _ | .halts | .waits _ _ | .stops _ => True

section Faultless

variable {s : State}

theorem memRead_faultless {a : Nat} {f : Word → State → StepEnd}
    (hf : s.Granted a → (f (s.cell a) ((s.define a).note (.read a (s.cell a)))).Faultless) : (memRead a s f).Faultless := by
  rcases memRead_cases a s f with ⟨-, hg, e⟩ | ⟨-, -, e⟩ | ⟨-, e⟩ <;> rw [e]
  · exact hf hg
  all_goals trivial

theorem memWrite_faultless {a : Nat} {v : Word} {f : State → StepEnd} (hf : ∀ u, (f u).Faultless) :
    (memWrite a v s f).Faultless := by
  rcases memWrite_cases a v s f with ⟨-, -, e⟩ | ⟨-, -, e⟩ | ⟨-, e⟩ <;> rw [e]
  · exact hf _
  all_goals trivial

theorem inRead_faultless {f : Word → State → StepEnd} (hf : ∀ v u, (f v u).Faultless) : (inRead s f).Faultless := by
  rcases inRead_cases s f with ⟨-, e⟩ | ⟨v, rest, -, e⟩ <;> rw [e]
  · trivial
  · exact hf _ _

theorem outWrite_faultless {v : Word} {f : State → StepEnd} (hf : ∀ u, (f u).Faultless) : (outWrite v s f).Faultless := by
  rcases outWrite_cases v s f with ⟨-, e⟩ | ⟨-, e⟩ <;> rw [e]
  · exact hf _
  · trivial

theorem checkedAddress_faultless {v : Word} {f : Nat → StepEnd} (hv : 0 ≤ v.toInt) (hf : (f v.toNat).Faultless) :
    (checkedAddress v f).Faultless := by
  rwa [checkedAddress_nonneg hv]

theorem indirectOperand_faultless {k : Word} {f : Nat → State → StepEnd} (hk : 0 ≤ k.toInt)
    (he : s.Granted k.toNat → 0 ≤ (s.cell k.toNat).toInt) (hf : ∀ ea u, (f ea u).Faultless) :
    (indirectOperand k s f).Faultless := by
  unfold indirectOperand addressOperand
  exact checkedAddress_faultless hk (memRead_faultless fun hg => checkedAddress_faultless (he hg) (hf _ _))

end Faultless

theorem perform_faultless {i : Instr} {s : State} {work : State → StepEnd} (h : (work s.fresh).Faultless) :
    ∃ e, perform i s work = settle i s e ∧ e.Faultless :=
  ⟨_, rfl, h⟩

/-- An operand that passes the sign check and a pointer cell that is not read negative leave no fault to raise. -/
theorem exec_settles_faultless {i : Instr} {s : State} (hsign : i.operandSignOk = true)
    (hptr : i.operandKind = .addressIndirect → s.fresh.Granted i.operand.toNat → 0 ≤ (s.cell i.operand.toNat).toInt) :
    ∃ e, exec i s = settle i s e ∧ e.Faultless := by
  cases i <;> unfold exec <;> refine perform_faultless ?_
  case get k =>
    exact checkedAddress_faultless (of_decide_eq_true hsign) (inRead_faultless fun _ _ => memWrite_faultless fun _ => trivial)
  case put k =>
    exact checkedAddress_faultless (of_decide_eq_true hsign) (memRead_faultless fun _ => outWrite_faultless fun _ => trivial)
  case load k | store k =>
    exact checkedAddress_faultless (of_decide_eq_true hsign) (memRead_faultless fun _ => memWrite_faultless fun _ => trivial)
  case add k | sub k =>
    exact checkedAddress_faultless (of_decide_eq_true hsign)
      (memRead_faultless fun _ => memRead_faultless fun _ => memWrite_faultless fun _ => trivial)
  case loadi k | storei k =>
    exact indirectOperand_faultless (of_decide_eq_true hsign) (hptr rfl) fun _ _ =>
      memRead_faultless fun _ => memWrite_faultless fun _ => trivial
  case addi k | subi k =>
    exact indirectOperand_faultless (of_decide_eq_true hsign) (hptr rfl) fun _ _ =>
      memRead_faultless fun _ => memRead_faultless fun _ => memWrite_faultless fun _ => trivial
  case set k => exact memWrite_faultless fun _ => trivial
  case half k =>
    exact checkedAddress_faultless (of_decide_eq_true hsign) (memRead_faultless fun _ => memWrite_faultless fun _ => trivial)
  case jump k | halt k => trivial
  case jpos k | jzero k | jneg k => exact memRead_faultless fun _ => trivial
  case rtrn k => exact checkedAddress_faultless (of_decide_eq_true hsign) (memRead_faultless fun _ => trivial)

/-- Only a work that raises a fault settles to the state that fault leaves: completion publishes a snapshot, waiting holds a wait and
halting ends in another run state. -/
theorem settle_ne_raiseFatal {i : Instr} {s : State} {e : StepEnd} (he : e.Faultless) (kind : FatalKind) :
    settle i s e ≠ .next (raiseFatal kind s) := by
  intro h
  rcases settle_next h with ⟨done, -, ht⟩ | ⟨-, ht⟩ | ⟨kind', rfl, -⟩ | ⟨reason, mid, -, ht⟩
  · cases congrArg State.dbg ht
  · cases congrArg State.rs ht
  · exact he
  · exact raiseFatal_ne_holdWait ht

theorem exec_ne_raiseFatal {i : Instr} {s : State} (hsign : i.operandSignOk = true)
    (hptr : i.operandKind = .addressIndirect → s.fresh.Granted i.operand.toNat → 0 ≤ (s.cell i.operand.toNat).toInt)
    (kind : FatalKind) : exec i s ≠ .next (raiseFatal kind s) := by
  obtain ⟨e, he, hfaultless⟩ := exec_settles_faultless hsign hptr
  exact he ▸ settle_ne_raiseFatal hfaultless kind

/-! ### What completes (R103) -/

/-- A work waits only for a side that is not ready: the source of a `GET`, the sink of a `PUT`, or a memory that has acknowledged at
most one request of the step (R58, R65, R121, R123). -/
theorem Held.not_ready {i : Instr} {s mid : State} {reason : WaitReason} (h : Held i s reason mid) :
    (i.opcode = 0x00 ∧ s.takenInput = none ∧ s.host.input = []) ∨ (i.opcode = 0x01 ∧ s.host.sinkReady = false) ∨
      s.acknowledged + s.host.dmemAcks ≤ 1 := by
  cases h with
  | input hi hn => exact .inl ⟨hi, State.nextInput_eq_none.1 hn⟩
  | output _ hi hs => exact .inr (.inl ⟨hi, hs⟩)
  | memory hu _ hn => exact .inr (.inr (hn ▸ hu.made))

/-- Settles O39: of the four ends of an instruction, the opcode excludes the halt, the operand and the pointer cell the fault, and the
host's ready side the wait. -/
theorem wellFormedInstructionsComplete : Obligations.WellFormedInstructionsComplete := by
  intro i s hsign hop hacks hsink hin hptr
  obtain ⟨t, h⟩ := exec_answers i s
  rcases exec_next_ends h with ⟨done, c, rfl⟩ | ⟨hhalt, -⟩ | rfl | ⟨reason, mid, hh, -⟩
  · have w := c.working
    exact ⟨_, h, w.rs, w.fc, w.fpc, rfl, congrArg (· + cost i) w.tc, congrArg (· + ioCost i) w.ic⟩
  · exact absurd hhalt hop
  · exact absurd h (exec_ne_raiseFatal hsign (fun hi _ => hptr hi) _)
  · rcases hh.not_ready with ⟨hi, htaken, hempty⟩ | ⟨hi, hs⟩ | hle
    · have hready := hin hi
      simp [htaken, hempty] at hready
    · exact absurd (hsink hi) (by simp [hs])
    · omega

/-- `SET` and the relative jumps complete in every state: they make no request and check no address (R72, R145, R160 to R163). -/
theorem exec_of_literal_or_offset {i : Instr} (hi : i.operandKind = .literal ∨ i.operandKind = .relativeOffset) (s : State) :
    ∃ done, Working i s done ∧ exec i s = .next (retire i s done) := by
  have w := Working.start i s
  cases i with
  | set k => exact ⟨_, (w.write rfl k).advance, rfl⟩
  | jump k => exact ⟨_, w.setPc _, rfl⟩
  | jpos k | jzero k | jneg k => exact ⟨_, (w.read 0 s.acc).branch _ k, rfl⟩
  | _ => rcases hi with hi | hi <;> cases hi

/-- `HALT` examines no operand (R165). -/
theorem exec_of_halt {i : Instr} (hi : i.opcode = 0x11) (s : State) : exec i s = .next (haltRun s) := by
  cases i with
  | halt k => rfl
  | _ => simp [Instr.opcode] at hi

/-- The sign of the operand is bit 63 of the word (R70, R93). -/
theorem operandField_neg_iff (w : InsnWord) : (operandField w).toInt < 0 ↔ w.getLsbD 63 = true := by
  have hmsb : (operandField w).msb = w.getLsbD 63 := by simp [operandField, BitVec.msb_eq_getLsbD_last]
  rw [← hmsb, BitVec.msb_eq_toInt, decide_eq_true_eq]

/-- Settles O9: a word of a known opcode is an encoding, whose instruction the operand kind tells apart; for any other opcode the
sign check comes first as well. -/
theorem operandSignCheck : Obligations.OperandSignCheck := by
  intro s w hrst hrs hlen hpc hw
  have hstep {i : Instr} (hi : encode i = w) : step s = exec i s :=
    stepRunsTheDecodedInstruction s w i hrst hrs hlen hpc hw (decode_eq_ok_iff.2 hi)
  refine ⟨operandField_neg_iff w, fun hneg hop => ?_, fun hop => ?_, fun hop => ?_⟩
  · by_cases hknown : (opcodeField w).toNat ≤ 0x11
    · obtain ⟨i, rfl⟩ := exists_encode_eq hknown
      rw [opcodeField_encode] at hop
      rw [operandField_encode] at hneg
      have hbad : i.operandSignOk = false := by
        rw [← Bool.not_eq_true, operandSignOk_eq_true_iff]
        exact not_or.2 ⟨hop, by omega⟩
      exact (hstep rfl).trans (exec_of_operand_neg hbad s)
    · exact (unknownOpcodeFault s w hrst hrs hlen hpc hw (by omega)).2 hneg
  · have hle : ∀ op ∈ ([0x0A, 0x0C, 0x0D, 0x0E, 0x0F] : List OpcodeField), op.toNat ≤ 0x11 := by decide
    obtain ⟨i, rfl⟩ := exists_encode_eq (hle _ hop)
    rw [opcodeField_encode] at hop
    have hkind : i.operandKind = .literal ∨ i.operandKind = .relativeOffset := by
      cases i <;> simp [Instr.opcode, Instr.operandKind] at hop ⊢
    obtain ⟨done, hwork, he⟩ := exec_of_literal_or_offset hkind s
    have hcost : 1 ≤ cost i := cost_pos fun h => by simp [h] at hop
    refine ⟨_, (hstep rfl).trans he, hwork.rs.trans hrs, rfl, ?_, hwork.fc, hwork.fpc⟩
    rw [retire_tc, hwork.tc]
    omega
  · obtain ⟨i, rfl⟩ := exists_encode_eq (w := w) (by rw [hop]; decide)
    exact ⟨_, (hstep rfl).trans (exec_of_halt (opcodeField_encode i ▸ hop) s), rfl, rfl, rfl⟩

/-! ### The charge of a step (R96, R97) -/

/-- Settles O40, row by row. -/
theorem costTable : Obligations.CostTable := fun _ => rfl

/-- Only `GET` and `PUT` have an io charge (R96). -/
theorem ioCost_eq (i : Instr) : ioCost i = if i.opcode = 0x00 ∨ i.opcode = 0x01 then 100 else 0 := by
  cases i <;> rfl

/-- Settles O41: of the four ends of a Running step only completion charges. -/
theorem onlyCompletedStepsAreCharged : Obligations.OnlyCompletedStepsAreCharged := by
  intro s t hrst hrs h
  rcases running_step_ends hrst hrs h with ⟨i, done, ⟨w, hf, hd⟩, c, rfl⟩ | ⟨i, -, -, rfl⟩ | ⟨kind, -, rfl⟩ |
      ⟨i, reason, mid, -, -, rfl⟩
  · have hwork := c.working
    refine .inl ⟨w, i, hf, hd, hwork.rs.trans hrs, rfl, by rw [retire_tc, hwork.tc], ?_⟩
    rw [retire_ic, hwork.ic, ioCost_eq]
  · exact .inr ⟨.inl rfl, rfl, rfl⟩
  · exact .inr ⟨.inr (.inl rfl), rfl, rfl⟩
  · exact .inr ⟨.inr (.inr rfl), rfl, rfl⟩

/-! ### The arithmetic and condition units (R99 to R101) -/

/-- `wrap64` of an integer in the range of `int64` is that integer (R99). -/
theorem toInt_wrap_of_fits {x : Int} (hlow : -2 ^ 63 ≤ x) (hhigh : x < 2 ^ 63) : (BitVec.ofInt 64 x).toInt = x := by
  rw [BitVec.toInt_ofInt]
  exact Int.bmod_eq_of_le (by omega) (by omega)

/-- `wrap64` gives an `int64` congruent to the integer modulo `2^64` (R99). -/
theorem toInt_wrap (x : Int) :
    -2 ^ 63 ≤ (BitVec.ofInt 64 x).toInt ∧ (BitVec.ofInt 64 x).toInt < 2 ^ 63 ∧
      ((BitVec.ofInt 64 x).toInt - x) % 2 ^ 64 = 0 := by
  refine ⟨BitVec.le_toInt _, BitVec.toInt_lt, Int.emod_eq_zero_of_dvd ?_⟩
  rw [BitVec.toInt_ofInt]
  exact Int.dvd_bmod_sub_self

/-- Settles O51: the adder and the subtracter are `wrap64` of the exact result. -/
theorem adderWrapsAround : Obligations.AdderWrapsAround :=
  fun _ _ => ⟨toInt_wrap_of_fits, toInt_wrap_of_fits, toInt_wrap _, toInt_wrap _⟩

/-- An arithmetic shift right by one bit rounds toward minus infinity (R100). -/
theorem toInt_asr1 (a : Word) : (asr1 a).toInt = a.toInt / 2 := by
  rw [asr1, BitVec.toInt_sshiftRight, Int.shiftRight_eq_div_pow, pow_one, Nat.cast_ofNat]

/-- Settles O52: the quotient, the copied sign bit and the shifted bits of an arithmetic shift. -/
theorem halvingRoundsDown : Obligations.HalvingRoundsDown := by
  refine ⟨fun a => ⟨toInt_asr1 a, ?_, fun i hi => ?_⟩, by decide, by decide⟩
  · rw [asr1, BitVec.getLsbD_sshiftRight, BitVec.msb_eq_getLsbD_last]
    simp
  · have hin : 1 + i < 64 := by omega
    have hout : ¬ 64 ≤ i := by omega
    rw [asr1, BitVec.getLsbD_sshiftRight, if_pos hin, Nat.add_comm]
    simp [hout]

/-- Settles O53: the predicates are the three signs of the accumulator, of which an integer has exactly one. -/
theorem exactlyOneCondition : Obligations.ExactlyOneCondition := by
  refine fun a => ⟨decide_eq_true_iff, decide_eq_true_iff, decide_eq_true_iff, ?_⟩
  simp only [condPos, condZero, condNeg, decide_eq_true_eq, decide_eq_false_iff_not]
  omega

end Sys2Proof.Machine
end

section
/-! PROOF. The two channel instructions: the whole next state of `GET` (R120) and of `PUT` (R122). -/

namespace Sys2Proof.Machine

/-- What completion makes of the working state, written out: the charge, the snapshot, and no wait (R96, R196). -/
theorem retire_eq (i : Instr) (s done : State) : retire i s done =
    { done with
      tc := done.tc + cost i, ic := done.ic + ioCost i, wait := none,
      dbg := s.snapshotAt i.opcode i.operand done.acc (decide (0 ∈ done.defined)) } := rfl

section Channels

variable {s : State} {k : Word} (hk : 0 ≤ k.toInt) (hans : s.Answers [k.toNat])

include hk hans

/-- A `GET` with an input value and a cell that answers writes the value and goes on to the next instruction (R120). -/
theorem exec_get_completes {v : Word} {rest : List Word} (hn : s.nextInput = some (v, rest)) :
    exec (.get k) s = .next (retire (.get k) s (advance
      (((((s.fresh.consumeInput rest).note (.input v)).setCell k.toNat v).define k.toNat).note (.write k.toNat v)))) := by
  have hg : ((s.fresh.consumeInput rest).note (.input v)).Granted k.toNat := granted_fresh_iff.2 (.inr hans)
  rw [exec_get_with_input hk hn, memWrite_answers (toNat_lt_addrLimit hk) hg, settle_completes]

/-- A `PUT` with a cell that answers and a sink that accepts hands the cell over and goes on to the next instruction (R122). -/
theorem exec_put_completes (hsink : s.host.sinkReady = true) :
    exec (.put k) s = .next (retire (.put k) s (advance
      ((((s.fresh.define k.toNat).note (.read k.toNat (s.cell k.toNat))).emit (s.cell k.toNat)).note
        (.output (s.cell k.toNat))))) := by
  have hg : s.fresh.Granted k.toNat := granted_fresh_iff.2 (.inr hans)
  rw [exec_put, execPut, perform, addressOperand, checkedAddress_nonneg hk, memRead_answers (toNat_lt_addrLimit hk) hg,
    outWrite, if_pos (by simpa using hsink), settle_completes, State.cell_fresh]

end Channels

/-- Settles O18: the value offered or taken is the next input, without one the step waits, and the sign check comes first. -/
theorem getWritesTheInputValue : Obligations.GetWritesTheInputValue := by
  refine fun s k => ⟨decode_encode (.get k), fun v rest hk hin hans => ?_, fun hk htaken hempty => ?_, fun hk => ?_⟩
  · rw [exec_get_completes hk hans (State.nextInput_eq_some.2 hin)]
    simp [retire_eq, definedAfter, Instr.opcode, Instr.operand, cost, ioCost]
  · rw [exec_get_without_input k (State.nextInput_eq_none.2 ⟨htaken, hempty⟩), if_neg (by omega),
      holdWait_eq_afterWait s.fresh_host, s.fresh_trace]
  · exact exec_get_neg hk s

/-- Settles O19: with its cell read the step completes or waits as the sink decides, and the sign check comes first. -/
theorem putHandsOverTheCell : Obligations.PutHandsOverTheCell := by
  refine fun s k => ⟨decode_encode (.put k), fun hk hans hsink => ?_, fun hk hans hsink => ?_, fun hk => ?_⟩
  · rw [exec_put_completes hk hans hsink]
    simp [retire_eq, definedAfter, Instr.opcode, Instr.operand, cost, ioCost]
  · have hg : s.fresh.Granted k.toNat := granted_fresh_iff.2 (.inr hans)
    rw [exec_put_without_sink k hsink, if_neg (by omega), if_pos hg, holdWait_eq_afterWait (by simp)]
    simp
  · have hbad : (Instr.put k).operandSignOk = false := by simpa [Instr.operandSignOk] using hk
    exact exec_of_operand_neg hbad s

end Sys2Proof.Machine
end

section
/-! PROOF. The four load and store instructions: the whole next state of `LOAD` (R130), `STORE` (R131), `LOADI` (R132) and `STOREI`
(R133), and that a `STORE` followed by a `LOAD` of the same cell gives the accumulator back (R135). -/

namespace Sys2Proof.Machine

/-! ### Which accesses the memory answers (R57, R58) -/

/-- A memory that answers the first requests and one more answers the first. -/
theorem State.Answers.of_append {s : State} {before after : List Nat} (h : s.Answers (before ++ after)) : s.Answers before := by
  rw [State.Answers, requestCount_append] at h
  exact Nat.le_of_add_right_le h

/-- One request is answered by a memory that acknowledges any in this look; the accumulator needs none (R57). -/
theorem State.answers_single {s : State} {a : Nat} (h : a = 0 ∨ 1 ≤ s.host.dmemAcks) : s.Answers [a] := by
  rw [State.Answers, requestCount_cons, requestCount_nil]
  split <;> omega

/-- Reading the accumulator is no request, so it grants the next access no less and no more (R57). -/
theorem State.granted_readAcc {u : State} {v : Word} {a : Nat} :
    ((u.define 0).note (.read 0 v)).Granted a ↔ u.Granted a := by
  simp [State.Granted, State.acknowledged]

/-- After the pointer read an access is granted exactly when the memory answers it with that read (R58). -/
theorem granted_afterPointer_iff {s : State} {k : Word} {a : Nat} :
    (s.afterPointer k).Granted a ↔ a = 0 ∨ s.Answers [k.toNat, a] :=
  State.granted_iff (before := [k.toNat]) rfl rfl (by simp [State.afterPointer])

/-! ### Completion, with the working state that is committed -/

section Direct

variable {s : State} {k : Word} (hk : 0 ≤ k.toInt) (hans : s.Answers [k.toNat])

include hk hans

/-- A `LOAD` whose cell answers copies the cell to the accumulator (R130). -/
theorem exec_load_completes :
    exec (.load k) s = .next (retire (.load k) s (advance
      (((((s.fresh.define k.toNat).note (.read k.toNat (s.cell k.toNat))).setCell 0 (s.cell k.toNat)).define 0).note
        (.write 0 (s.cell k.toNat))))) := by
  have hg : s.fresh.Granted k.toNat := granted_fresh_iff.2 (.inr hans)
  rw [exec, execLoad, perform, addressOperand, checkedAddress_nonneg hk, memRead_answers (toNat_lt_addrLimit hk) hg,
    memWrite_acc, settle_completes, State.cell_fresh]

/-- A `STORE` whose cell answers copies the accumulator to the cell (R131). -/
theorem exec_store_completes :
    exec (.store k) s = .next (retire (.store k) s (advance
      (((((s.fresh.define 0).note (.read 0 s.acc)).setCell k.toNat s.acc).define k.toNat).note (.write k.toNat s.acc)))) := by
  have hg : ((s.fresh.define 0).note (.read 0 s.acc)).Granted k.toNat :=
    State.granted_readAcc.2 (granted_fresh_iff.2 (.inr hans))
  rw [exec, execStore, perform, addressOperand, checkedAddress_nonneg hk, memRead_acc]
  exact congrArg (settle (.store k) s) (memWrite_answers (toNat_lt_addrLimit hk) hg)

end Direct

/-- A pointer cell that answers a value that is not negative gives the effective address (R94, R134). -/
theorem indirectOperand_of_pointer_nonneg {s : State} {k : Word} (hk : 0 ≤ k.toInt) (he : 0 ≤ (s.cell k.toNat).toInt)
    (hans : s.Answers [k.toNat]) (f : Nat → State → StepEnd) :
    indirectOperand k s.fresh f = f (s.cell k.toNat).toNat (s.afterPointer k) := by
  have hg : s.fresh.Granted k.toNat := granted_fresh_iff.2 (.inr hans)
  rw [indirectOperand, addressOperand, checkedAddress_nonneg hk, memRead_answers (toNat_lt_addrLimit hk) hg,
    State.cell_fresh, checkedAddress_nonneg he, State.afterPointer]

section Indirect

variable {s : State} {k : Word} (hk : 0 ≤ k.toInt) (he : 0 ≤ (s.cell k.toNat).toInt)
  (hans : s.Answers [k.toNat, (s.cell k.toNat).toNat])

include hk he hans

/-- A `LOADI` whose two cells answer copies the cell that the pointer names to the accumulator (R132). -/
theorem exec_loadi_completes :
    exec (.loadi k) s = .next (retire (.loadi k) s (advance
      ((((((s.afterPointer k).define (s.cell k.toNat).toNat).note
        (.read (s.cell k.toNat).toNat (s.cell (s.cell k.toNat).toNat))).setCell 0 (s.cell (s.cell k.toNat).toNat)).define 0).note
          (.write 0 (s.cell (s.cell k.toNat).toNat))))) := by
  have hg : (s.afterPointer k).Granted (s.cell k.toNat).toNat := granted_afterPointer_iff.2 (.inr hans)
  have hptr : s.Answers [k.toNat] := hans.of_append (before := [k.toNat])
  rw [exec, execLoadi, perform, indirectOperand_of_pointer_nonneg hk he hptr, memRead_answers (toNat_lt_addrLimit he) hg]
  rfl

/-- A `STOREI` whose two cells answer copies the accumulator to the cell that the pointer names (R133). -/
theorem exec_storei_completes :
    exec (.storei k) s = .next (retire (.storei k) s (advance
      ((((((s.afterPointer k).define 0).note (.read 0 s.acc)).setCell (s.cell k.toNat).toNat s.acc).define
        (s.cell k.toNat).toNat).note (.write (s.cell k.toNat).toNat s.acc)))) := by
  have hg : (((s.afterPointer k).define 0).note (.read 0 s.acc)).Granted (s.cell k.toNat).toNat :=
    State.granted_readAcc.2 (granted_afterPointer_iff.2 (.inr hans))
  have hptr : s.Answers [k.toNat] := hans.of_append (before := [k.toNat])
  rw [exec, execStorei, perform, indirectOperand_of_pointer_nonneg hk he hptr, memRead_acc]
  exact congrArg (settle (.storei k) s) (memWrite_answers (toNat_lt_addrLimit he) hg)

end Indirect

/-- Settles O20: the read of the cell is granted and the accumulator is written; the sign check comes first. -/
theorem loadCopiesTheCellToAcc : Obligations.LoadCopiesTheCellToAcc := by
  refine fun s k => ⟨decode_encode (.load k), fun hk hans => ?_, fun hk => ?_⟩
  · rw [exec_load_completes hk hans]
    simp [retire_eq, definedAfter, Instr.opcode, Instr.operand, cost, ioCost]
  · exact exec_of_operand_neg (i := .load k) (decide_eq_false (not_le.2 hk)) s

/-- Settles O21: the accumulator is read without a request and the write of the cell is granted; the sign check comes first. -/
theorem storeCopiesAccToTheCell : Obligations.StoreCopiesAccToTheCell := by
  refine fun s k => ⟨decode_encode (.store k), fun hk hans => ?_, fun hk => ?_⟩
  · rw [exec_store_completes hk hans]
    simp [retire_eq, definedAfter, Instr.opcode, Instr.operand, cost, ioCost]
  · exact exec_of_operand_neg (i := .store k) (decide_eq_false (not_le.2 hk)) s

/-- Settles O22: the pointer read and the read of the cell it names are granted; both sign checks fault. -/
theorem loadiReadsThroughThePointer : Obligations.LoadiReadsThroughThePointer := by
  refine fun s k => ⟨decode_encode (.loadi k), fun hk he hans => ?_, fun hk hans he => ?_, fun hk => ?_⟩
  · rw [exec_loadi_completes hk he hans]
    simp [retire_eq, State.afterPointer, definedAfter, Instr.opcode, Instr.operand, cost, ioCost]
  · exact effectiveAddressCheck s k (.loadi k) (by simp) hk hans he
  · exact exec_of_operand_neg (i := .loadi k) (decide_eq_false (not_le.2 hk)) s

/-- Settles O23: the pointer read and the write of the cell it names are granted; both sign checks fault. -/
theorem storeiWritesThroughThePointer : Obligations.StoreiWritesThroughThePointer := by
  refine fun s k => ⟨decode_encode (.storei k), fun hk he hans => ?_, fun hk hans he => ?_, fun hk => ?_⟩
  · rw [exec_storei_completes hk he hans]
    simp [retire_eq, State.afterPointer, definedAfter, Instr.opcode, Instr.operand, cost, ioCost]
  · exact effectiveAddressCheck s k (.storei k) (by simp) hk hans he
  · exact exec_of_operand_neg (i := .storei k) (decide_eq_false (not_le.2 hk)) s

/-- Settles O54: the state that `STORE` leaves holds the accumulator's value in the cell and no wait, so the memory answers the
`LOAD`, which then leaves accumulator and memory as they are. -/
theorem storeThenLoadRoundTrip : Obligations.StoreThenLoadRoundTrip := by
  intro s k hwf hk hacks
  have hacks' : k.toNat = 0 ∨ 1 ≤ s.host.dmemAcks := hacks.imp_left fun h => by rw [h]; rfl
  obtain ⟨-, hstore, -⟩ := storeCopiesAccToTheCell s k
  obtain ⟨t, ht, hacc, hmem, htc, hhost⟩ : ∃ t, exec (.store k) s = .next t ∧ t.acc = s.acc ∧
      t.mem = (s.setCell k.toNat s.acc).mem ∧ t.tc = s.tc + 10 ∧ t.host = s.host :=
    ⟨_, hstore hk (State.answers_single hacks'), rfl, rfl, rfl, rfl⟩
  have hcell : t.cell k.toNat = s.acc := by
    rw [State.cell_congr t (s.setCell k.toNat s.acc) (by simp [hacc]) hmem]
    exact s.cell_setCell_same k.toNat s.acc hwf
  obtain ⟨-, hload, -⟩ := loadCopiesTheCellToAcc t k
  obtain ⟨u, hu, hacc', hmem', htc'⟩ : ∃ u, exec (.load k) t = .next u ∧ u.acc = t.cell k.toNat ∧
      u.mem = t.mem ∧ u.tc = t.tc + 10 :=
    ⟨_, hload hk (State.answers_single (hhost ▸ hacks')), rfl, rfl, rfl⟩
  have hback : u.acc = s.acc := hacc'.trans hcell
  refine ⟨t, u, ht, hu, hback, ?_, by omega⟩
  rw [State.cell_congr u t (hback.trans hacc.symm) hmem', hcell]

end Sys2Proof.Machine
end

section
/-! PROOF. The six arithmetic instructions: the whole next state of `ADD` (R141), `SUB` (R142), `ADDI` (R143), `SUBI` (R144), `SET`
(R145) and `HALF` (R146). Each ends by writing its result to the accumulator; the two direct ones, and the two indirect ones,
differ in the operation of the arithmetic unit alone. -/

namespace Sys2Proof.Machine

/-! ### The result written to the accumulator, and the operands read before it -/

/-- Address 0 is defined after the write of the accumulator, so the snapshot shows `0 ∈ DEF` (R33, R196). -/
theorem settle_writeAcc (i : Instr) (s u : State) (v : Word) :
    settle i s (memWrite 0 v u fun u => .completes (advance u)) = .next
      { u with
        pc := u.pc + 1,
        acc := v,
        tc := u.tc + cost i, ic := u.ic + ioCost i, wait := none,
        defined := AddrSet.insert 0 u.defined,
        dbg := s.snapshotAt i.opcode i.operand v true,
        trace := u.trace ++ [.write 0 v] } := by
  have hdef : decide (0 ∈ AddrSet.insert 0 u.defined) = true := decide_eq_true ((AddrSet.mem_insert ..).2 (.inl rfl))
  rw [memWrite_acc, settle_completes, retire_eq, ← hdef]
  rfl

/-- The accumulator combined by `op` with a cell that answers (R141, R142). -/
theorem settle_directAlu {s : State} {k : Word} (hk : 0 ≤ k.toInt) (hans : s.Answers [k.toNat]) (i : Instr)
    (op : Word → Word → Word) :
    settle i s (addressOperand k fun addr => memRead 0 s.fresh fun a u => memRead addr u fun b u =>
        memWrite 0 (op a b) u fun u => .completes (advance u)) = .next
      { s with
        pc := s.pc + 1,
        acc := op s.acc (s.cell k.toNat),
        tc := s.tc + cost i, ic := s.ic + ioCost i, wait := none,
        defined := definedAfter [0, k.toNat, 0] s.defined,
        dbg := s.snapshotAt i.opcode i.operand (op s.acc (s.cell k.toNat)) true,
        trace := [.read 0 s.acc, .read k.toNat (s.cell k.toNat), .write 0 (op s.acc (s.cell k.toNat))] } := by
  have hg : ((s.fresh.define 0).note (.read 0 s.acc)).Granted k.toNat :=
    State.granted_readAcc.2 (granted_fresh_iff.2 (.inr hans))
  rw [addressOperand, checkedAddress_nonneg hk, memRead_acc, State.fresh_acc, memRead_answers (toNat_lt_addrLimit hk) hg,
    settle_writeAcc]
  simp [definedAfter]

/-- The accumulator combined by `op` with the cell that a pointer names, both cells answering (R143, R144). -/
theorem settle_indirectAlu {s : State} {k : Word} (hk : 0 ≤ k.toInt) (he : 0 ≤ (s.cell k.toNat).toInt)
    (hans : s.Answers [k.toNat, (s.cell k.toNat).toNat]) (i : Instr) (op : Word → Word → Word) :
    settle i s (indirectOperand k s.fresh fun ea u => memRead ea u fun b u => memRead 0 u fun a u =>
        memWrite 0 (op a b) u fun u => .completes (advance u)) = .next
      { s with
        pc := s.pc + 1,
        acc := op s.acc (s.cell (s.cell k.toNat).toNat),
        tc := s.tc + cost i, ic := s.ic + ioCost i, wait := none,
        defined := definedAfter [k.toNat, (s.cell k.toNat).toNat, 0, 0] s.defined,
        dbg := s.snapshotAt i.opcode i.operand (op s.acc (s.cell (s.cell k.toNat).toNat)) true,
        trace := [.read k.toNat (s.cell k.toNat), .read (s.cell k.toNat).toNat (s.cell (s.cell k.toNat).toNat),
          .read 0 s.acc, .write 0 (op s.acc (s.cell (s.cell k.toNat).toNat))] } := by
  have hg : (s.afterPointer k).Granted (s.cell k.toNat).toNat := granted_afterPointer_iff.2 (.inr hans)
  have hptr : s.Answers [k.toNat] := hans.of_append (before := [k.toNat])
  rw [indirectOperand_of_pointer_nonneg hk he hptr, memRead_answers (toNat_lt_addrLimit he) hg, memRead_acc, settle_writeAcc]
  simp [State.afterPointer, definedAfter]

/-- The halved word is the floor of the exact half (R11, R100). -/
theorem asr1_eq_ofInt (a : Word) : asr1 a = BitVec.ofInt 64 (a.toInt / 2) := by
  rw [← toInt_asr1, BitVec.ofInt_toInt]

/-! ### The instructions -/

/-- Settles O24: the read of the cell is granted and the adder's result is written; the sign check comes first. -/
theorem addLeavesTheWrappedSum : Obligations.AddLeavesTheWrappedSum := by
  refine fun s k => ⟨decode_encode (.add k), fun hk hans => ?_, fun hk => ?_⟩
  · exact settle_directAlu hk hans (.add k) aluAdd
  · exact exec_of_operand_neg (i := .add k) (decide_eq_false (not_le.2 hk)) s

/-- Settles O25: as `ADD`, with the difference. -/
theorem subLeavesTheWrappedDifference : Obligations.SubLeavesTheWrappedDifference := by
  refine fun s k => ⟨decode_encode (.sub k), fun hk hans => ?_, fun hk => ?_⟩
  · exact settle_directAlu hk hans (.sub k) aluSub
  · exact exec_of_operand_neg (i := .sub k) (decide_eq_false (not_le.2 hk)) s

/-- Settles O26: the pointer read and the read of the cell it names are granted; both sign checks fault. -/
theorem addiLeavesTheWrappedSum : Obligations.AddiLeavesTheWrappedSum := by
  refine fun s k => ⟨decode_encode (.addi k), fun hk he hans => ?_, fun hk hans he => ?_, fun hk => ?_⟩
  · exact settle_indirectAlu hk he hans (.addi k) aluAdd
  · exact effectiveAddressCheck s k (.addi k) (by simp) hk hans he
  · exact exec_of_operand_neg (i := .addi k) (decide_eq_false (not_le.2 hk)) s

/-- Settles O27: as `ADDI`, with the difference and its own cost. -/
theorem subiLeavesTheWrappedDifference : Obligations.SubiLeavesTheWrappedDifference := by
  refine fun s k => ⟨decode_encode (.subi k), fun hk he hans => ?_, fun hk hans he => ?_, fun hk => ?_⟩
  · exact settle_indirectAlu hk he hans (.subi k) aluSub
  · exact effectiveAddressCheck s k (.subi k) (by simp) hk hans he
  · exact exec_of_operand_neg (i := .subi k) (decide_eq_false (not_le.2 hk)) s

/-- Settles O28: the literal is written as it stands, with no check before it. -/
theorem setCopiesTheLiteral : Obligations.SetCopiesTheLiteral :=
  fun s k => ⟨decode_encode (.set k), settle_writeAcc (.set k) s s.fresh k⟩

/-- Settles O29: past the sign check the accumulator is read and its arithmetic shift written. -/
theorem halfIsFloorDivisionByTwo : Obligations.HalfIsFloorDivisionByTwo := by
  refine fun s k => ⟨decode_encode (.half k), fun hk => ?_, fun hk => ?_⟩
  · rw [exec, execHalf, perform, unusedOperand, checkedAddress_nonneg hk, memRead_acc, State.fresh_acc, asr1_eq_ofInt,
      settle_writeAcc]
    rfl
  · exact exec_of_operand_neg (i := .half k) (decide_eq_false (not_le.2 hk)) s

end Sys2Proof.Machine
end

section
/-! PROOF. The six control-transfer instructions: the whole next state of `JUMP` (R160), `JPOS` (R161), `JZERO` (R162), `JNEG` (R163),
`RTRN` (R164) and `HALT` (R165), and that a transfer's target is checked at the next fetch (R166, R182). -/

namespace Sys2Proof.Machine

/-! ### The pc that a completed transfer leaves -/

theorem branch_eq (taken : Bool) (k : Word) (s : State) :
    branch taken k s = { s with pc := if taken = true then s.pc + k.signExtend 65 else s.pc + 1 } := by
  cases taken <;> rfl

/-- A conditional jump whose condition unit tests `P` of the accumulator (R98, R101). The read of the accumulator makes 0 a defined
address. -/
theorem settle_condJump (i : Instr) {s : State} {cond : Word → Bool} {P : Prop} [Decidable P] (hP : cond s.acc = true ↔ P)
    (k : Word) :
    settle i s (memRead 0 s.fresh fun a u => .completes (branch (cond a) k u)) = .next
      { s with
        pc := if P then s.pc + k.signExtend 65 else s.pc + 1,
        tc := s.tc + cost i, ic := s.ic + ioCost i, wait := none,
        defined := definedAfter [0] s.defined,
        dbg := s.snapshotAt i.opcode i.operand s.acc true,
        trace := [.read 0 s.acc] } := by
  rw [memRead_acc, settle_completes, branch_eq, retire_eq]
  simp [hP, definedAfter]

theorem condZero_eq_true_iff (a : Word) : condZero a = true ↔ a = 0 := by
  rw [condZero, decide_eq_true_eq, ← BitVec.toInt_zero, BitVec.toInt_inj]
  rfl

/-- An `RTRN` whose cell answers goes on at the index the cell holds, unchecked (R164, R166). -/
theorem exec_rtrn_completes {s : State} {k : Word} (hk : 0 ≤ k.toInt) (hans : s.Answers [k.toNat]) :
    exec (.rtrn k) s = .next (retire (.rtrn k) s (jumpTo (s.cell k.toNat)
      ((s.fresh.define k.toNat).note (.read k.toNat (s.cell k.toNat))))) := by
  have hg : s.fresh.Granted k.toNat := granted_fresh_iff.2 (.inr hans)
  rw [exec, execRtrn, perform, addressOperand, checkedAddress_nonneg hk, memRead_answers (toNat_lt_addrLimit hk) hg,
    settle_completes, State.cell_fresh]

/-! ### The instructions -/

/-- Settles O30: the work of `JUMP` is the sum alone, with no access and no check before it. -/
theorem jumpAddsTheOffset : Obligations.JumpAddsTheOffset := by
  refine fun s k => ⟨decode_encode (.jump k), ?_⟩
  have hwork : exec (.jump k) s = .next (retire (.jump k) s (jumpBy k s.fresh)) := rfl
  rw [hwork, retire_eq]
  rfl

/-- Settles O31: the condition is `pos`. -/
theorem jposJumpsWhenPositive : Obligations.JposJumpsWhenPositive := by
  refine fun s k => ⟨decode_encode (.jpos k), ?_⟩
  obtain ⟨hpos, -⟩ := exactlyOneCondition s.acc
  exact settle_condJump (.jpos k) hpos k

/-- Settles O32: the condition is `zero`. -/
theorem jzeroJumpsWhenZero : Obligations.JzeroJumpsWhenZero :=
  fun s k => ⟨decode_encode (.jzero k), settle_condJump (.jzero k) (condZero_eq_true_iff s.acc) k⟩

/-- Settles O33: the condition is `neg`. -/
theorem jnegJumpsWhenNegative : Obligations.JnegJumpsWhenNegative := by
  refine fun s k => ⟨decode_encode (.jneg k), ?_⟩
  obtain ⟨-, -, hneg, -⟩ := exactlyOneCondition s.acc
  exact settle_condJump (.jneg k) hneg k

/-- Settles O34: the read of the cell is granted and its value is the next pc; the sign check comes first. -/
theorem rtrnJumpsToTheCell : Obligations.RtrnJumpsToTheCell := by
  refine fun s k => ⟨decode_encode (.rtrn k), fun hk hans => ?_, fun hk => ?_⟩
  · rw [exec_rtrn_completes hk hans]
    simp [retire_eq, definedAfter, Instr.opcode, Instr.operand, cost, ioCost]
  · exact exec_of_operand_neg (i := .rtrn k) (decide_eq_false (not_le.2 hk)) s

/-- Settles O35: `HALT` ends the run, and an ended run is held. -/
theorem haltEndsTheRun : Obligations.HaltEndsTheRun := by
  intro s k
  have hexec : exec (.halt k) s = .next (haltRun s) := exec_of_halt rfl s
  refine ⟨decode_encode (.halt k), hexec, fun t ht hrst => ?_⟩
  obtain rfl : haltRun s = t := Host.Outcome.next.inj (hexec.symm.trans ht)
  exact heldWhenNotRunning (haltRun s) hrst (.inl rfl)

/-! ### The check of the target (R166) -/

/-- Of the four ends of an instruction only completion leaves a Running machine with no step in progress. -/
theorem exec_running_completes {i : Instr} {s t : State} (h : exec i s = .next t) (hrs : t.rs = .running)
    (hwait : t.wait = none) : ∃ done, Working i s done ∧ t = retire i s done := by
  rcases exec_next h with hc | ⟨-, rfl⟩ | rfl | ⟨reason, mid, -, rfl⟩
  · exact hc
  · cases hrs
  · cases hrs
  · cases hwait

/-- Settles O59: the transfer has completed, so it is charged and the program is still the host's, and the next step begins with the
fetch range check of the target. -/
theorem transferTargetsAreCheckedAtTheNextFetch : Obligations.TransferTargetsAreCheckedAtTheNextFetch := by
  intro s t w i hrst hrs hlen hpc hw hd hop hstep hrun hwait
  have hexec : exec i s = .next t := (stepRunsTheDecodedInstruction s w i hrst hrs hlen hpc hw hd).symm.trans hstep
  obtain ⟨done, hwork, rfl⟩ := exec_running_completes hexec hrun hwait
  have hget : i.opcode ≠ 0x00 := fun h => by simp [h] at hop
  have hhost : (retire i s done).host = s.host := hwork.host_eq hget
  refine ⟨congrArg (· + cost i) hwork.tc, fun hout => ?_⟩
  obtain ⟨hfault, -⟩ := fetchRangeCheck (retire i s done) (hhost ▸ hrst) hrun (hhost ▸ hlen)
  exact ⟨_, hfault (hhost ▸ hout), rfl, rfl, rfl, rfl, rfl⟩

end Sys2Proof.Machine
end

section
/-! PROOF. Faults and the debug port (60_exceptions.md): what taking a fault changes (R180), the order of the checks of a step (R186),
the snapshot of a completed step (R196) and the enumeration of the defined addresses (R197). -/

namespace Sys2Proof.Machine

/-! ### Taking a fault (R180) -/

/-- Settles O12: of the four ends of a Running step only a raised fault leaves a Fatal machine. -/
theorem takingAFaultChangesOnlyTheRecord : Obligations.TakingAFaultChangesOnlyTheRecord := by
  intro s t hrst hrs h hfatal
  rcases running_step_ends hrst hrs h with ⟨i, done, -, c, rfl⟩ | ⟨i, -, -, rfl⟩ | ⟨kind, -, rfl⟩ | ⟨i, reason, mid, -, -, rfl⟩
  · have hrun : (retire i s done).rs = .running := c.working.rs.trans hrs
    cases hrun.symm.trans hfatal
  · cases hfatal
  · exact ⟨kind, rfl, rfl, by cases kind <;> rfl⟩
  · cases hrs.symm.trans hfatal

/-! ### The order of the checks (R186) -/

/-- The forms with a pointer cell are `LOADI`, `STOREI`, `ADDI` and `SUBI` (R74). -/
theorem operandKind_addressIndirect_iff (i : Instr) :
    i.operandKind = .addressIndirect ↔ i.opcode ∈ ([0x04, 0x05, 0x08, 0x09] : List OpcodeField) := by
  cases i <;> simp [Instr.operandKind, Instr.opcode]

/-- An instruction other than `HALT` that passes its address checks completes or waits: it keeps the run state and the fault record. -/
theorem exec_keeps_fault_record {i : Instr} {s : State} (hop : i.opcode ≠ 0x11) (hsign : i.operandSignOk = true)
    (hptr : i.operandKind = .addressIndirect → s.fresh.Granted i.operand.toNat → 0 ≤ (s.cell i.operand.toNat).toInt) :
    ∃ t, exec i s = .next t ∧ t.rs = s.rs ∧ t.fc = s.fc ∧ t.fpc = s.fpc := by
  obtain ⟨t, h⟩ := exec_answers i s
  refine ⟨t, h, ?_⟩
  rcases exec_next h with ⟨done, w, rfl⟩ | ⟨hhalt, -⟩ | rfl | ⟨reason, mid, -, rfl⟩
  · exact ⟨w.rs, w.fc, w.fpc⟩
  · exact absurd hhalt hop
  · exact absurd h (exec_ne_raiseFatal hsign hptr _)
  · exact ⟨rfl, rfl, rfl⟩

/-- The first request of a step is granted exactly when the memory answers it; address 0 is no request and is always answered (R57). -/
theorem granted_fresh_iff_answers {s : State} {a : Nat} : s.fresh.Granted a ↔ s.Answers [a] :=
  granted_fresh_iff.trans (or_iff_right_of_imp fun h => State.answers_single (.inl h))

/-- The opcodes whose operand is not sign-checked: those of `SET` and the relative jumps, and that of `HALT` (R93). -/
theorem mem_unchecked_opcodes_iff (op : OpcodeField) :
    op ∈ ([0x0A, 0x0C, 0x0D, 0x0E, 0x0F, 0x11] : List OpcodeField) ↔
      op ∈ ([0x0A, 0x0C, 0x0D, 0x0E, 0x0F] : List OpcodeField) ∨ op = 0x11 := by
  simp only [List.mem_cons, List.not_mem_nil, or_false, or_assoc]

/-- An instruction other than `HALT` whose operand passes the sign check takes the fault of a negative pointer cell that answers, and no
other (R93, R94). -/
theorem exec_after_sign_check {i : Instr} {s : State} (hop : i.opcode ≠ 0x11) (hsign : i.operandSignOk = true) :
    ∃ t, exec i s = .next t ∧
      if i.opcode ∈ ([0x04, 0x05, 0x08, 0x09] : List OpcodeField) ∧
          s.Answers [i.operand.toNat] ∧ (s.cell i.operand.toNat).toInt < 0 then
        t.rs = .fatal ∧ t.fc = some .negativeAddress
      else t.rs = s.rs ∧ t.fc = s.fc ∧ t.fpc = s.fpc := by
  split
  next hptr =>
    obtain ⟨hind, hans, he⟩ := hptr
    have hdisjoint : ∀ op ∈ ([0x0A, 0x0C, 0x0D, 0x0E, 0x0F, 0x11] : List OpcodeField),
        op ∉ ([0x04, 0x05, 0x08, 0x09] : List OpcodeField) := by decide
    have hk : 0 ≤ i.operand.toInt := ((operandSignOk_eq_true_iff i).1 hsign).resolve_left fun h => hdisjoint _ h hind
    have hkind := (operandKind_addressIndirect_iff i).2 hind
    exact ⟨_, exec_of_pointer_neg hkind hk (granted_fresh_iff_answers.2 hans) he, rfl, rfl⟩
  next hptr =>
    refine exec_keeps_fault_record hop hsign fun hkind hg => not_lt.1 fun he => hptr ?_
    exact ⟨(operandKind_addressIndirect_iff i).1 hkind, granted_fresh_iff_answers.1 hg, he⟩

/-- Settles O13, check by check in the order of the chain: the fetch, `HALT`, the operand's sign and the unknown opcode by the statements
about each; what is left is an instruction that passes the sign check. -/
theorem priorityOfChecks : Obligations.PriorityOfChecks := by
  intro s hrst hrs hlen
  cases hf : fetch s with
  | none => exact ⟨_, step_of_fetch_none hrst hrs hlen hf, fetch_eq_none_iff.1 hf, rfl, rfl⟩
  | some w =>
    obtain ⟨hpc, -, hw⟩ := fetch_eq_some hf
    obtain ⟨-, hneg, -, hhalt⟩ := operandSignCheck s w hrst hrs hlen hpc hw
    by_cases hop : opcodeField w = 0x11
    · obtain ⟨t, ht, hhalted, hfc, -⟩ := hhalt hop
      exact ⟨t, ht, hpc, hw, by rw [if_pos hop]; exact ⟨hhalted, hfc⟩⟩
    by_cases hsign : opcodeField w ∉ ([0x0A, 0x0C, 0x0D, 0x0E, 0x0F] : List OpcodeField) ∧ (operandField w).toInt < 0
    · have hchecked := mt (mem_unchecked_opcodes_iff _).1 (not_or.2 ⟨hsign.1, hop⟩)
      exact ⟨_, hneg hsign.2 hchecked, hpc, hw, by rw [if_neg hop, if_pos hsign]; exact ⟨rfl, rfl⟩⟩
    have hpasses := (not_and_or.1 hsign).imp not_not.1 not_lt.1
    by_cases hunknown : 0x11 < (opcodeField w).toNat
    · have hle : ∀ op ∈ ([0x0A, 0x0C, 0x0D, 0x0E, 0x0F] : List OpcodeField), op.toNat ≤ 0x11 := by decide
      have hk : 0 ≤ (operandField w).toInt := hpasses.resolve_left fun h => (hle _ h).not_gt hunknown
      obtain ⟨hfault, -⟩ := unknownOpcodeFault s w hrst hrs hlen hpc hw hunknown
      exact ⟨_, hfault hk, hpc, hw, by rw [if_neg hop, if_neg hsign, if_pos hunknown]; exact ⟨rfl, rfl⟩⟩
    obtain ⟨i, rfl⟩ := exists_encode_eq (not_lt.1 hunknown)
    have hok : i.operandSignOk = true := by
      rw [operandSignOk_eq_true_iff, mem_unchecked_opcodes_iff, ← opcodeField_encode i, ← operandField_encode i]
      exact hpasses.imp_left .inl
    obtain ⟨t, ht, hend⟩ := exec_after_sign_check (s := s) (opcodeField_encode i ▸ hop) hok
    have hstep := stepRunsTheDecodedInstruction s _ i hrst hrs hlen hpc hw (decode_encode i)
    refine ⟨t, hstep.trans ht, hpc, hw, ?_⟩
    rw [if_neg hop, if_neg hsign, if_neg hunknown, opcodeField_encode, operandField_encode]
    exact hrs ▸ hend

/-! ### The snapshot (R196) -/

/-- Settles O56: of the four ends of a Running step completion publishes a snapshot of the word executed, the others clear the port. -/
theorem snapshotExactlyAfterCompletion : Obligations.SnapshotExactlyAfterCompletion := by
  intro s t hrst hrs h
  rcases running_step_ends hrst hrs h with ⟨i, done, ⟨w, hf, hd⟩, c, rfl⟩ | ⟨i, -, -, rfl⟩ | ⟨kind, -, rfl⟩ |
      ⟨i, reason, mid, -, -, rfl⟩
  · have hrun : (retire i s done).rs = .running := c.working.rs.trans hrs
    obtain rfl : encode i = w := decode_eq_ok_iff.1 hd
    refine ⟨fun _ _ => ⟨_, snapshotOf i s done, hf, rfl, rfl, (opcodeField_encode i).symm, (operandField_encode i).symm, rfl, rfl,
      congrArg mnemonicOf (opcodeField_encode i).symm⟩, fun hend => ?_⟩
    rcases hend with hend | hend
    · exact absurd hrun hend
    · cases hend
  · exact ⟨fun hrun => (by cases hrun), fun _ => rfl⟩
  · exact ⟨fun hrun => (by cases hrun), fun _ => rfl⟩
  · exact ⟨fun _ hwait => (by cases hwait), fun _ => rfl⟩

/-! ### The enumeration (R197) -/

/-- The addresses of a set in canonical form strictly ascend from its lower bound. -/
theorem AddrSet.ascends_of_wfFrom {lo : Nat} {d : List Nat} (h : AddrSet.wfFrom lo d = true) :
    d.Pairwise (· < ·) ∧ ∀ a ∈ d, lo ≤ a := by
  induction d generalizing lo with
  | nil => simp
  | cons b rest ih =>
    obtain ⟨hlo, -, hrest⟩ := (AddrSet.wfFrom_cons lo b rest).1 h
    obtain ⟨hasc, hge⟩ := ih hrest
    refine ⟨List.pairwise_cons.2 ⟨hge, hasc⟩, fun a ha => ?_⟩
    rcases List.mem_cons.1 ha with rfl | ha
    · exact hlo
    · have := hge a ha
      omega

/-- In canonical form the accumulator's address, when it is there, comes before all others. -/
theorem AddrSet.eq_zero_append_nonzero {d : List Nat} (h : AddrSet.wf d = true) :
    d = (if 0 ∈ d then [0] else []) ++ d.filter fun a => decide (a ≠ 0) := by
  cases d with
  | nil => rfl
  | cons b rest =>
    obtain ⟨-, -, hwf⟩ := (AddrSet.wfFrom_cons 0 b rest).1 h
    obtain ⟨-, hge⟩ := AddrSet.ascends_of_wfFrom hwf
    have hpos : ∀ a ∈ rest, a ≠ 0 := fun a ha => by have := hge a ha; omega
    have hrest : (rest.filter fun a => decide (a ≠ 0)) = rest := List.filter_eq_self.2 fun a ha => decide_eq_true (hpos a ha)
    by_cases hb : b = 0
    · rw [List.filter_cons, hrest]
      simp [hb]
    · have hzero : 0 ∉ b :: rest := List.not_mem_cons_of_ne_of_not_mem (Ne.symm hb) fun hm => hpos 0 hm rfl
      rw [if_neg hzero, List.filter_cons, hrest]
      simp [hb]

/-- The memory subsystem's part shows the cells themselves: an address above 0 is one of the data memory (R57). -/
theorem memoryEnumeration_eq (s : State) :
    s.memoryEnumeration = (s.defined.filter fun a => decide (a ≠ 0)).map fun a => (a, s.cell a) :=
  List.map_congr_left fun a ha => by
    have hne : a ≠ 0 := of_decide_eq_true (List.mem_filter.1 ha).2
    rw [State.cell, if_neg hne]

theorem enumeration_eq_acc_append_memory {s : State} (h : AddrSet.wf s.defined = true) :
    s.enumeration = (if 0 ∈ s.defined then [(0, s.acc)] else []) ++ s.memoryEnumeration := by
  rw [State.enumeration, memoryEnumeration_eq]
  conv_lhs => rw [AddrSet.eq_zero_append_nonzero h, List.map_append]
  split <;> rfl

/-- Settles O57: `DEF` is in canonical form, and a snapshot on the port shows the accumulator and whether 0 is in `DEF`. -/
theorem enumerationIsAscending : Obligations.EnumerationIsAscending := by
  intro s hinv
  have hsplit := enumeration_eq_acc_append_memory hinv.definedAscending
  refine ⟨?_, fun a v => ?_, hsplit, fun d hd => ?_⟩
  · have hfst : s.enumeration.map Prod.fst = s.defined := by simp [State.enumeration, Function.comp_def]
    rw [hfst]
    exact (AddrSet.ascends_of_wfFrom hinv.definedAscending).1
  · simp only [State.enumeration, List.mem_map, Prod.mk.injEq]
    constructor
    · rintro ⟨b, hb, rfl, rfl⟩
      exact ⟨hb, rfl⟩
    · rintro ⟨ha, rfl⟩
      exact ⟨a, ha, rfl, rfl⟩
  · obtain ⟨hacc, hdef⟩ := hinv.snapshotTrue d hd
    rw [hsplit, hacc, hdef]
    simp only [decide_eq_true_eq]

end Sys2Proof.Machine
end

section
/-! PROOF. Reset (70_reset_and_hazards.md): no port presents a request while `rst` is 1 (R210), every element takes its value of R37,
and nothing but reset leaves Halted and Fatal (R211). -/

namespace Sys2Proof.Machine

variable {s t : State}

theorem State.presented_of_rst (hrst : s.host.rst = true) : s.presented = none := if_pos hrst

theorem imemAddrPort_of_rst (hrst : s.host.rst = true) : imemAddrPort s = none := by
  simp [imemAddrPort, hrst]

/-- While `rst` is 1 no request is made on any port, whatever the step in progress waits for (R210). -/
theorem ports_silent_of_rst (hrst : s.host.rst = true) :
    inReadyPort s = false ∧ outOfferedPort s = none ∧ dmemPendingPort s = none ∧ imemAddrPort s = none := by
  have hnone : s.presented = none := State.presented_of_rst hrst
  refine ⟨?_, ?_, ?_, imemAddrPort_of_rst hrst⟩
  · rw [inReadyPort, hnone]; rfl
  · rw [outOfferedPort, hnone]
  · rw [dmemPendingPort, hnone]

/-- The host brings every cell of the data memory to 0 (R213, log 9). -/
@[simp] theorem applyReset_cell (s : State) (a : Nat) : (applyReset s).cell a = 0 := State.cell_reset a

/-- Reset is the only way out of Halted and Fatal (R189, R211): any other step answers the ended state itself. -/
theorem rst_of_ended_of_running (hend : s.Ended) (h : step s = .next t) (hrun : t.rs = .running) : s.host.rst = true := by
  rw [← Bool.not_eq_false]
  intro hrst
  rcases step_ended_or_running hrst h with ⟨-, rfl⟩ | hrs
  · simp [State.Ended, hrun] at hend
  · simp [State.Ended, hrs] at hend

/-- Settles O15: a reset step leaves `rst` as the host drives it, so the ports are as silent after it as before it. -/
theorem resetAtAnyTime : Obligations.ResetAtAnyTime := by
  refine ⟨fun s hrst => ?_, fun _ _ => rst_of_ended_of_running⟩
  have hrst' : (applyReset s).host.rst = true := hrst
  obtain ⟨hin, hout, hdmem, himem⟩ := ports_silent_of_rst hrst
  exact ⟨hin, hout, hdmem, himem, applyReset s, step_of_reset hrst, applyReset_host s,
    rfl, rfl, rfl, rfl, applyReset_cell s, rfl, rfl, rfl, rfl, rfl, rfl, rfl, ports_silent_of_rst hrst'⟩

end Sys2Proof.Machine
end
